-- ==== Sys2Proof/Word.lean ====
section
/-! DEFINITION. The word types: a 32-bit register or bus word and an 8-bit byte of the store (10_state.md R22, R34). -/

namespace Sys2Proof

/-- A 32-bit control register value, command word, host byte offset or bus data word (R22, R55, R80). -/
abbrev Word := BitVec 32

/-- One byte of a plane of the pixel store (R34), or the 8-bit COLOR or OP field of a command word (R81). -/
abbrev Byte := BitVec 8

end Sys2Proof
end

