-- ==== Sys2Proof/Config.lean ====
section
/-! DEFINITION. The configuration of 00_scope.md R5: its parameters, the values derived from them, the constraints a
configuration must meet to define a machine (R6), and the configuration of `State.reset` (log 2). -/

namespace Sys2Proof

/-- BIT_ORDER (R5, R51): where pixel `x mod 8` stands inside its byte.  This hardware is MSB_FIRST (90_conflicts.md C1). -/
inductive BitOrder where
  | msbFirst
  | lsbFirst
  deriving DecidableEq, Repr

/-- The parameters of R5.  None of them changes after reset.  `batch` is read by no rule (R35, C8). -/
structure Config where
  fbW : Nat
  fbH : Nat
  nPlanes : Nat
  bitOrder : BitOrder
  fbBase : Nat
  planeStride : Nat
  batch : Nat
  deriving DecidableEq, Repr

/-- ROW_BYTES = FB_W / 8 (R5, C3). -/
def Config.rowBytes (c : Config) : Nat := c.fbW / 8

/-- BUF_BYTES = ROW_BYTES * FB_H, the bytes of one plane (R5). -/
def Config.bufBytes (c : Config) : Nat := c.rowBytes * c.fbH

/-- The end (exclusive) of the read aperture: FB_BASE + NPLANES * PLANE_STRIDE (R56). -/
def Config.apertureEnd (c : Config) : Nat := c.fbBase + c.nPlanes * c.planeStride

/-- The constraints of R5, as a check. -/
def Config.legal (c : Config) : Bool :=
  decide (c.fbW % 8 = 0) && decide (8 ≤ c.fbW) && decide (c.fbW ≤ 65528) &&
  decide (1 ≤ c.fbH) && decide (c.fbH ≤ 65535) &&
  decide (1 ≤ c.nPlanes) && decide (c.nPlanes ≤ 8) &&
  decide (c.fbBase % 4 = 0) && decide (0x1000 ≤ c.fbBase) &&
  decide (c.planeStride % 4 = 0) && decide (c.bufBytes ≤ c.planeStride) &&
  decide (1 ≤ c.batch) &&
  decide (c.apertureEnd ≤ 2 ^ 32)

/-- The configuration meets R5.  One that breaks a constraint defines no machine (R6). -/
abbrev Config.Legal (c : Config) : Prop := c.legal = true

/-- Doubles `p` until it reaches `n`, at most `fuel` times. -/
def doubleUntil (n : Nat) : Nat → Nat → Nat
  | 0, p => p
  | fuel + 1, p => if n ≤ p then p else doubleUntil n fuel (2 * p)

/-- The default PLANE_STRIDE of R5: the smallest power of two ≥ max(4, BUF_BYTES). -/
def defaultStride (bufBytes : Nat) : Nat := doubleUntil bufBytes 32 4

/-- The configuration of a geometry with R5's defaults: MSB_FIRST, FB_BASE 0x0010_0000, the default stride, BATCH 128. -/
def Config.withDefaults (fbW fbH nPlanes : Nat) : Config :=
  { fbW := fbW, fbH := fbH, nPlanes := nPlanes, bitOrder := .msbFirst, fbBase := 0x00100000,
    planeStride := defaultStride (fbW / 8 * fbH), batch := 128 }

/-- The configuration `State.reset` is built with: the 24 × 8 one-plane bitmap of 95_test_vectors.md (G1).
DESIGN CHOICE (log 2), unsafe: R5 makes the geometry a model argument and gives it no default. -/
def Config.reference : Config := Config.withDefaults 24 8 1

end Sys2Proof
end

