-- ==== Sys2Proof/Syntax.lean ====
section
/-! DEFINITION. The host's actions and the block's instructions: the registers of 10_state.md R22, bus transactions
(20_memory.md R55), and `Instr`, one constructor per row of spec/opcode_table.json. -/

namespace Sys2Proof

/-- The mapped registers of R22, in the order of their offsets. -/
inductive Reg where
  | ctrl | status | posX | posY | extW | extH | cmd | errInfo | seqRemainLo | seqRemainHi
  | geomW | geomH | logicalW | logicalH | config | apertureBase | apertureStride
  deriving DecidableEq, Repr

/-- The kind of a transaction (R55). -/
inductive Kind where
  | read
  | write
  deriving DecidableEq, Repr

/-- The access width n ∈ {1, 2, 4} of a transaction (R55). -/
inductive Width where
  | byte
  | half
  | word
  deriving DecidableEq, Repr

/-- The width in bytes, the spec's n. -/
def Width.bytes : Width → Nat
  | .byte => 1
  | .half => 2
  | .word => 4

/-- A host transaction `(kind, addr, n, data)` (R55).  `data` is read by writes only. -/
structure Transaction where
  kind : Kind
  addr : Word
  width : Width
  data : Word
  deriving DecidableEq, Repr

/-- What the host can do to the block: one transaction on its port (R55), or a reset between transactions (R181). -/
inductive HostAction where
  | transact (t : Transaction)
  | reset
  deriving DecidableEq, Repr

/-- The instructions, one constructor per row of spec/opcode_table.json.  The commands with a legal OP carry RSV
(bits 31:16) and COLOR (bits 15:8) whole, so that the reserved encodings of R85 are forms of their row (log 6). -/
inductive Instr where
  /-- SET_PIXEL (R120). -/
  | setPixel (rsv : BitVec 16) (color : Byte)
  /-- FILL_RECT (R122). -/
  | fillRect (rsv : BitVec 16) (color : Byte)
  /-- SEQ_BEGIN (R141). -/
  | seqBegin (rsv : BitVec 16) (color : Byte)
  /-- SEQ_PUSH (R144). -/
  | seqPush (rsv : BitVec 16) (color : Byte)
  /-- SEQ_END (R147). -/
  | seqEnd (rsv : BitVec 16) (color : Byte)
  /-- ILLEGAL_OP: a command word whose OP is not assigned (R84). -/
  | illegalOp (word : Word)
  /-- REG_WRITE: a legal write of a mapped register (R57). -/
  | regWrite (reg : Reg) (value : Word)
  /-- REG_READ: a legal read of a mapped register (R57). -/
  | regRead (reg : Reg)
  /-- FB_READ_BYTE: a one-byte read of the aperture (R59). -/
  | fbReadByte (addr : Word)
  /-- FB_READ_WORD: a four-byte read of the aperture (R59). -/
  | fbReadWord (addr : Word)
  /-- FB_WRITE: any write of the aperture (R61). -/
  | fbWrite (addr : Word) (width : Width) (data : Word)
  deriving DecidableEq, Repr

end Sys2Proof
end

