-- ==== Sys2Proof/WellFormed.lean ====
section
/-! DEFINITION. Which terms of `Instr` stand for a transaction of their row of spec/opcode_table.json, said from the
table's "match" column and independently of the decoder.  A command with a reserved field is well-formed: it is a form
of its row, and its meaning discards it with ERR_RESERVED (30_encoding.md R85, log 6). -/

namespace Sys2Proof

/-- All `n` bytes from host byte offset `a` on are bytes of one plane: a = FB_BASE + k * PLANE_STRIDE + off with
k < NPLANES and off + n ≤ BUF_BYTES (the match column of FB_READ_BYTE and FB_READ_WORD, R59). -/
def Config.holdsBytes (c : Config) (a n : Nat) : Bool :=
  decide (c.fbBase ≤ a) && decide (a < c.apertureEnd) &&
    decide ((a - c.fbBase) % c.planeStride + n ≤ c.bufBytes)

/-- The term stands for a transaction of its row of the opcode table under the configuration `c`. -/
def Instr.WellFormed (c : Config) : Instr → Bool
  | .setPixel _ _ => true
  | .fillRect _ _ => true
  | .seqBegin _ _ => true
  | .seqPush _ _ => true
  | .seqEnd _ _ => true
  | .illegalOp w => decide (w.toNat % 256 = 0) || decide (6 ≤ w.toNat % 256)
  | .regWrite r _ => decide (r ≠ Reg.cmd)
  | .regRead _ => true
  | .fbReadByte a => c.holdsBytes a.toNat 1
  | .fbReadWord a => decide (a.toNat % 4 = 0) && c.holdsBytes a.toNat 4
  | .fbWrite a _ _ => decide (c.fbBase ≤ a.toNat) && decide (a.toNat < c.apertureEnd)

end Sys2Proof
end

