-- ==== Sys2Proof/Decode.lean ====
section
/-! DEFINITION. The decoder of 30_encoding.md: the CMD format (R81, R83, R84) and the BUS format (R87), total on every
transaction and rejecting by name; then the encoder, from the same tables (R22, R81, R83, R88). -/

namespace Sys2Proof

/-- OP, bits 7:0 of a command word (R81). -/
def opField (w : Word) : Byte := w.extractLsb' 0 8

/-- COLOR, bits 15:8 of a command word (R81). -/
def colorField (w : Word) : Byte := w.extractLsb' 8 8

/-- RSV, bits 31:16 of a command word (R81). -/
def rsvField (w : Word) : BitVec 16 := w.extractLsb' 16 16

/-- The assigned opcodes of R83. -/
inductive Opcode where
  | setPixel
  | fillRect
  | seqBegin
  | seqPush
  | seqEnd
  deriving DecidableEq, Repr

/-- The opcode an OP value selects; none where R84 calls it illegal. -/
def opcodeOf (op : Byte) : Option Opcode :=
  if op = 0x01 then some .setPixel
  else if op = 0x02 then some .fillRect
  else if op = 0x03 then some .seqBegin
  else if op = 0x04 then some .seqPush
  else if op = 0x05 then some .seqEnd
  else none

/-- A command word as an instruction (R81, R83, R84): total on every 32-bit word (R86).  The reserved fields go into the
instruction, whose meaning checks them (R164). -/
def decodeCommand (w : Word) : Instr :=
  match opcodeOf (opField w) with
  | some .setPixel => .setPixel (rsvField w) (colorField w)
  | some .fillRect => .fillRect (rsvField w) (colorField w)
  | some .seqBegin => .seqBegin (rsvField w) (colorField w)
  | some .seqPush => .seqPush (rsvField w) (colorField w)
  | some .seqEnd => .seqEnd (rsvField w) (colorField w)
  | none => .illegalOp w

/-- The register at a host byte offset of the register block; none where the offset is unmapped (R22). -/
def regAt (offset : Nat) : Option Reg :=
  match offset with
  | 0x00 => some .ctrl
  | 0x04 => some .status
  | 0x08 => some .posX
  | 0x0C => some .posY
  | 0x10 => some .extW
  | 0x14 => some .extH
  | 0x18 => some .cmd
  | 0x1C => some .errInfo
  | 0x20 => some .seqRemainLo
  | 0x24 => some .seqRemainHi
  | 0x28 => some .geomW
  | 0x2C => some .geomH
  | 0x30 => some .logicalW
  | 0x34 => some .logicalH
  | 0x38 => some .config
  | 0x3C => some .apertureBase
  | 0x40 => some .apertureStride
  | _ => none

/-- The aperture holds the offset (R56). -/
def inAperture (c : Config) (a : Nat) : Bool := decide (c.fbBase ≤ a) && decide (a < c.apertureEnd)

/-- R59's k: the plane of an aperture offset. -/
def aperturePlane (c : Config) (a : Nat) : Nat := (a - c.fbBase) / c.planeStride

/-- R59's off: the byte index of an aperture offset inside its plane's stride. -/
def apertureOffset (c : Config) (a : Nat) : Nat := (a - c.fbBase) % c.planeStride

/-- Why a transaction is a bus error before any instruction is reached (R57, R59). -/
inductive BusErrorCause where
  /-- A register-block access of width 1 or 2 (R57). -/
  | registerWidth
  /-- A register-block access whose offset is no multiple of 4 (R57). -/
  | registerMisaligned
  /-- An unmapped offset of the register block (R57). -/
  | registerUnmapped
  /-- An aperture read of width 2 (R59). -/
  | apertureWidth
  /-- A four-byte aperture read at an offset that is no multiple of 4 (R59). -/
  | apertureMisaligned
  /-- An aperture read with a byte beyond BUF_BYTES of its plane (R59). -/
  | aperturePadding
  /-- An offset outside the register block and the aperture (R57, R87). -/
  | unmapped
  deriving DecidableEq, Repr

/-- What a transaction decodes to: an instruction of the table, or a bus error by name. -/
inductive Decoded where
  | instr (i : Instr)
  | busError (cause : BusErrorCause)
  deriving DecidableEq, Repr

/-- The register block (R57, R87): legal when n = 4, addr mod 4 = 0 and the offset is mapped; a write of CMD is a command. -/
def decodeRegister (t : Transaction) : Decoded :=
  if t.width ≠ .word then .busError .registerWidth
  else if t.addr.toNat % 4 ≠ 0 then .busError .registerMisaligned
  else
    match regAt t.addr.toNat with
    | none => .busError .registerUnmapped
    | some r =>
      match t.kind with
      | .read => .instr (.regRead r)
      | .write => if r = .cmd then .instr (decodeCommand t.data) else .instr (.regWrite r t.data)

/-- The read aperture (R59, R61): writes of any width are FB_WRITE; a read is legal when n ∈ {1, 4}, addr mod n = 0 and
off + n ≤ BUF_BYTES. -/
def decodeAperture (c : Config) (t : Transaction) : Decoded :=
  match t.kind, t.width with
  | .write, _ => .instr (.fbWrite t.addr t.width t.data)
  | .read, .half => .busError .apertureWidth
  | .read, .byte =>
    if apertureOffset c t.addr.toNat + 1 ≤ c.bufBytes then .instr (.fbReadByte t.addr)
    else .busError .aperturePadding
  | .read, .word =>
    if t.addr.toNat % 4 ≠ 0 then .busError .apertureMisaligned
    else if apertureOffset c t.addr.toNat + 4 ≤ c.bufBytes then .instr (.fbReadWord t.addr)
    else .busError .aperturePadding

/-- The host-level decode, in the order of R87: register block, aperture, everything else. -/
def decode (c : Config) (t : Transaction) : Decoded :=
  if t.addr.toNat < 0x1000 then decodeRegister t
  else if inAperture c t.addr.toNat then decodeAperture c t
  else .busError .unmapped

/-! ### The encoder -/

/-- The OP value of an opcode (R83). -/
def opcodeByte : Opcode → Byte
  | .setPixel => 0x01
  | .fillRect => 0x02
  | .seqBegin => 0x03
  | .seqPush => 0x04
  | .seqEnd => 0x05

/-- The command word RSV ++ COLOR ++ OP (R81). -/
def commandWord (rsv : BitVec 16) (color : Byte) (op : Opcode) : Word := rsv ++ color ++ opcodeByte op

/-- The byte offset of a register (R22). -/
def regOffset : Reg → Nat
  | .ctrl => 0x00
  | .status => 0x04
  | .posX => 0x08
  | .posY => 0x0C
  | .extW => 0x10
  | .extH => 0x14
  | .cmd => 0x18
  | .errInfo => 0x1C
  | .seqRemainLo => 0x20
  | .seqRemainHi => 0x24
  | .geomW => 0x28
  | .geomH => 0x2C
  | .logicalW => 0x30
  | .logicalH => 0x34
  | .config => 0x38
  | .apertureBase => 0x3C
  | .apertureStride => 0x40

/-- The host byte offset of a register as the bus carries it. -/
def regAddr (r : Reg) : Word := BitVec.ofNat 32 (regOffset r)

/-- The transaction that writes a command word to CMD (R26, R88). -/
def commandWrite (w : Word) : Transaction := { kind := .write, addr := regAddr .cmd, width := .word, data := w }

/-- The transaction of an instruction, R88's encoding column.  A read's data word is not used and is written as 0. -/
def encode : Instr → Transaction
  | .setPixel rsv color => commandWrite (commandWord rsv color .setPixel)
  | .fillRect rsv color => commandWrite (commandWord rsv color .fillRect)
  | .seqBegin rsv color => commandWrite (commandWord rsv color .seqBegin)
  | .seqPush rsv color => commandWrite (commandWord rsv color .seqPush)
  | .seqEnd rsv color => commandWrite (commandWord rsv color .seqEnd)
  | .illegalOp w => commandWrite w
  | .regWrite r v => { kind := .write, addr := regAddr r, width := .word, data := v }
  | .regRead r => { kind := .read, addr := regAddr r, width := .word, data := 0 }
  | .fbReadByte a => { kind := .read, addr := a, width := .byte, data := 0 }
  | .fbReadWord a => { kind := .read, addr := a, width := .word, data := 0 }
  | .fbWrite a n d => { kind := .write, addr := a, width := n, data := d }

/-- The command word a table word of `nbits` bits stands for; none when it is longer than a command. -/
def tableCommand (nbits w : Nat) : Option Word :=
  if nbits ≤ 32 then some (BitVec.ofNat 32 (w % 2 ^ nbits)) else none

/-- The instruction the decoder reads from a table word.  A 32-bit instruction word of this hardware is a CMD word: the
data of a write to offset 0x18 (R80, R81).  The 32 bits the table shows for REG_READ and REG_WRITE are the transaction's
address alone, the same for both, and no instruction by themselves (log 9). -/
def decodeTableWord (nbits w : Nat) : Option Instr := (tableCommand nbits w).map decodeCommand

end Sys2Proof
end

