-- ==== Sys2Proof/Machine/State.lean ====
section
/-! DEFINITION. The state of the block as plain data (10_state.md R20 to R37), the outcomes of a step, and reset. -/

namespace Sys2Proof.Machine

/-- The value of CTRL.ROT (R23): no rotation, or 90°, 180°, 270° clockwise. -/
inductive Rotation where
  | none
  | cw90
  | cw180
  | cw270
  deriving DecidableEq, Repr

/-- An open sequence OPEN{x0, y0, w, h, rot, idx} (R33). -/
structure Sequence where
  x0 : Int
  y0 : Int
  w : Nat
  h : Nat
  rot : Rotation
  idx : Nat
  deriving DecidableEq, Repr

/-- The response kind of a transaction (R55). -/
inductive BusStatus where
  | okay
  | error
  deriving DecidableEq, Repr

/-- The response of a transaction: OKAY or ERROR, with a 32-bit value for a read and none for a write (R55). -/
structure Response where
  status : BusStatus
  data : Option Word
  deriving DecidableEq, Repr

/-- The bytes of the store as pairs of host byte offset and byte, in the canonical form of `Memory.wf` (Machine/Ops.lean). -/
abbrev Memory := List Host.Cell

/-- Faults.  The type has no constructor: nothing stops this block.  Errors are recorded and the machine goes on
(R160, R174; 93_implementation_defined.md: no behaviour "is `stuck`"). -/
inductive Fault
  deriving DecidableEq, Repr

/-- Refusals: the model gives no meaning. -/
inductive Refusal where
  /-- Raised by `exec` for an instruction that has no meaning yet, by its mnemonic in the opcode table.  Safe: nothing is
  concluded about the instruction.  No instruction is refused so today. -/
  | notModelled (mnemonic : String)
  /-- Raised by `step` and by every meaning when the configuration breaks a constraint of R5: such a configuration
  defines no machine (R6).  Safe: nothing is concluded about it (log 8). -/
  | illegalConfiguration
  deriving DecidableEq, Repr

/-- The whole state.  Everything R20 names, each register once; the registers that follow other state (STATUS.SEQ_OPEN,
SEQ_REMAIN, LOGICAL_W/H) or the configuration are computed from it (Machine/Register.lean). -/
structure State where
  /-- The configuration of R5, a parameter no step changes; it stands here because the fixed names take no argument (log 1). -/
  cfg : Config
  /-- CTRL.ROT (R23). -/
  rot : Rotation
  /-- STATUS[12:8], bit j being STATUS bit 8 + j (R27). -/
  errBits : BitVec 5
  /-- POS_X (R24). -/
  posX : Word
  /-- POS_Y (R24). -/
  posY : Word
  /-- EXT_W (R25). -/
  extW : Word
  /-- EXT_H (R25). -/
  extH : Word
  /-- ERR_INFO (R28). -/
  errInfo : Word
  /-- `seq`: NONE or an open sequence (R33). -/
  seq : Option Sequence
  /-- `fb`: the bytes of every plane (R34). -/
  fb : Memory
  /-- MODEL: the host actions not yet performed, oldest first (log 3). -/
  pending : List HostAction
  /-- MODEL: the response of the last transaction, none before the first (log 5). -/
  response : Option Response
  deriving DecidableEq, Repr

/-- What a step or a meaning answers. -/
abbrev Result := Host.Outcome State Fault Refusal

/-- The machine of a configuration right after reset, every field as R37 states it; no host action waits and no
transaction has been answered. -/
def State.resetWith (c : Config) : State :=
  { cfg := c, rot := .none, errBits := 0, posX := 0, posY := 0, extW := 0, extH := 0, errInfo := 0, seq := none,
    fb := [], pending := [], response := none }

/-- The machine right after reset, for the configuration of log 2. -/
def State.reset : State := State.resetWith Config.reference

end Sys2Proof.Machine
end

