-- ==== Sys2Proof/Machine/Flags.lean ====
section
/-! DEFINITION. The block's only flags: the STATUS register's error bits and SEQ_OPEN (10_state.md R27; R163: sticky and
independent).  There are no condition codes. -/

namespace Sys2Proof.Machine

/-- The error bits of STATUS (R27, R161). -/
inductive ErrorBit where
  | illegalOp
  | reserved
  | seqOpen
  | noSeq
  | access
  deriving DecidableEq, Repr

/-- The code of an error: its STATUS bit number (R161, R27). -/
def errorCode : ErrorBit → Nat
  | .illegalOp => 8
  | .reserved => 9
  | .seqOpen => 10
  | .noSeq => 11
  | .access => 12

/-- The bit of an error inside `State.errBits`. -/
def errorMask (e : ErrorBit) : BitVec 5 := 1#5 <<< (errorCode e - 8)

/-- Set one error bit and leave the others (R163). -/
def setErrorBit (e : ErrorBit) (bits : BitVec 5) : BitVec 5 := bits ||| errorMask e

/-- A write of `v` to STATUS: for each b in {8, …, 12}, v[b] = 1 clears bit b; all other bits of v are ignored (R27). -/
def clearErrorBits (v : Word) (bits : BitVec 5) : BitVec 5 := bits &&& ~~~(v.extractLsb' 8 5)

/-- STATUS.SEQ_OPEN: 1 exactly when `seq ≠ NONE` (R27). -/
def seqOpenBit (q : Option Sequence) : BitVec 1 :=
  match q with
  | none => 0
  | some _ => 1

/-- STATUS as a read gives it (R27): bits 31:13 and 7:1 read 0. -/
def statusWord (s : State) : Word := 0#19 ++ s.errBits ++ 0#7 ++ seqOpenBit s.seq

end Sys2Proof.Machine
end

