-- ==== Sys2Proof/Machine/Ops.lean ====
section
/-! DEFINITION. The shared operations: the store's bytes (20_memory.md R50, R59), responses, raising a command error
(60_exceptions.md R162) and a bus error (R165), the checks every command makes first (R164), reset (R180), and taking
the host's next action (R55). -/

namespace Sys2Proof.Machine

/-! ### Memory -/

/-- What a byte of the store that is not listed reads as: the reset contents 0x00 (R37). -/
def Memory.unlisted : Byte := 0x00

/-- The byte at a host byte offset. -/
def Memory.read : Memory → Nat → Byte
  | [], _ => Memory.unlisted
  | (b, x) :: rest, a => if a = b then x else Memory.read rest a

/-- Store one byte at a host byte offset, keeping the canonical form: a byte equal to `Memory.unlisted` is not listed. -/
def Memory.write : Memory → Nat → Byte → Memory
  | [], a, v => if v = Memory.unlisted then [] else [(a, v)]
  | (b, x) :: rest, a, v =>
    if a < b then
      if v = Memory.unlisted then (b, x) :: rest else (a, v) :: (b, x) :: rest
    else if a = b then
      if v = Memory.unlisted then rest else (a, v) :: rest
    else (b, x) :: Memory.write rest a v

/-- Every address of the list is above `a`. -/
def Memory.above (a : Nat) : Memory → Bool
  | [] => true
  | (b, _) :: rest => decide (a < b) && Memory.above a rest

/-- The canonical form: addresses strictly rising, and no entry equal to what an unlisted address reads as. -/
def Memory.wf : Memory → Bool
  | [] => true
  | (a, x) :: rest => decide (x ≠ Memory.unlisted) && Memory.above a rest && Memory.wf rest

/-- The host byte offset of byte i of plane k: FB_BASE + k * PLANE_STRIDE + i (R59). -/
def storeAddr (c : Config) (k i : Nat) : Nat := c.fbBase + k * c.planeStride + i

/-- `fb[k][i]` (R9, R34). -/
def fbRead (c : Config) (k i : Nat) (m : Memory) : Byte := m.read (storeAddr c k i)

/-- `fb[k][i] <- v` (R9, R34). -/
def fbWrite (c : Config) (k i : Nat) (v : Byte) (m : Memory) : Memory := m.write (storeAddr c k i) v

/-! ### Loops -/

/-- `n` turns of a loop whose variable starts at `a` and rises by one. -/
def forCount {α : Type} (f : Nat → α → α) : Nat → Nat → α → α
  | _, 0, x => x
  | a, n + 1, x => forCount f (a + 1) n (f a x)

/-- `for v in [a, b)`: increasing order, empty when b ≤ a (R9). -/
def forRange {α : Type} (a b : Nat) (f : Nat → α → α) (x : α) : α := forCount f a (b - a) x

/-! ### Responses and errors -/

/-- Answer a write with OKAY (R55). -/
def okayWrite (s : State) : State := { s with response := some { status := .okay, data := none } }

/-- Answer a read with OKAY and a value (R55). -/
def okayRead (v : Word) (s : State) : State := { s with response := some { status := .okay, data := some v } }

/-- The ERROR response: a read returns 0x0000_0000 (R165). -/
def errorResponse (kind : Kind) : Response :=
  match kind with
  | .read => { status := .error, data := some 0 }
  | .write => { status := .error, data := none }

/-- `raise CmdError(code, word)`: set the STATUS bit, latch the word, and complete the CMD write with OKAY (R162). -/
def raiseCmdError (e : ErrorBit) (word : Word) (s : State) : State :=
  okayWrite { s with errBits := setErrorBit e s.errBits, errInfo := word }

/-- `raise BusError(addr)`: set ERR_ACCESS, latch the byte offset, respond ERROR (R165). -/
def raiseBusError (kind : Kind) (addr : Word) (s : State) : State :=
  { s with errBits := setErrorBit .access s.errBits, errInfo := addr, response := some (errorResponse kind) }

/-- The state after a transaction, as an outcome of the machine `s`: a configuration that breaks R5 defines no machine
and is refused (R6, log 8). -/
def perform (s t : State) : Result := if s.cfg.Legal then .next t else .refused .illegalConfiguration

/-- R164's third check for SET_PIXEL, FILL_RECT and SEQ_BEGIN: no sequence may be open. -/
def requireNoSeq (s : State) : Option ErrorBit :=
  match s.seq with
  | none => none
  | some _ => some .seqOpen

/-- R164's third check for SEQ_PUSH: a sequence must be open. -/
def requireSeq (s : State) : Option ErrorBit :=
  match s.seq with
  | none => some .noSeq
  | some _ => none

/-- A command with a legal OP, in R164's order: the reserved bits, then the sequence state, then the effect.  The first
failing check discards the command; otherwise its effect is done and the write is acknowledged (R26, R58). -/
def runCommand (s : State) (word : Word) (reserved : Bool) (stateError : Option ErrorBit) (effect : State) : Result :=
  perform s
    (if reserved then raiseCmdError .reserved word s
     else
       match stateError with
       | some e => raiseCmdError e word s
       | none => okayWrite effect)

/-! ### Reset and the host port -/

/-- Reset taken by the host: every piece of state as R37 states it, the configuration kept (R180, R181).  The host's
later actions still wait, and no response stands (log 3, log 5). -/
def hostReset (s : State) : State := { State.resetWith s.cfg with pending := s.pending }

/-- Take the host's next action off the port, if there is one (R55, log 3). -/
def takeAction (s : State) : Option (HostAction × State) :=
  match s.pending with
  | [] => none
  | a :: rest => some (a, { s with pending := rest })

end Sys2Proof.Machine
end

