-- ==== Sys2Proof/Machine/Operands.lean ====
section
/-! DEFINITION. Operand assembly: 30_encoding.md R82, R85; 10_state.md R23 to R25; 00_scope.md R7. -/

namespace Sys2Proof.Machine

/-- `sint`: a register value as a two's-complement integer (R7). -/
def sint (w : Word) : Int := w.toInt

/-- `uint`: a register value as an unsigned integer (R7). -/
def uint (w : Word) : Nat := w.toNat

/-- An area: a top-left point and a size (the glossary of 00_scope.md). -/
structure Area where
  x : Int
  y : Int
  w : Nat
  h : Nat
  deriving DecidableEq, Repr

/-- The area operand of FILL_RECT and SEQ_BEGIN (R82). -/
def areaOperand (s : State) : Area := { x := sint s.posX, y := sint s.posY, w := uint s.extW, h := uint s.extH }

/-- ROT as the two bits CTRL[1:0] (R23). -/
def rotationBits : Rotation → BitVec 2
  | .none => 0
  | .cw90 => 1
  | .cw180 => 2
  | .cw270 => 3

/-- The rotation two bits select; every value is legal (R23). -/
def rotationOf (b : BitVec 2) : Rotation :=
  if b = 0 then .none else if b = 1 then .cw90 else if b = 2 then .cw180 else .cw270

/-- R86's cm, as bits of COLOR: the bits a colour may not use. -/
def colorMask (c : Config) : Byte := 0xFF#8 <<< c.nPlanes

/-- R85 for SET_PIXEL, FILL_RECT and SEQ_PUSH: RSV ≠ 0, or a COLOR bit at or above NPLANES. -/
def reservedColor (c : Config) (rsv : BitVec 16) (color : Byte) : Bool :=
  decide (rsv ≠ 0) || decide (color &&& colorMask c ≠ 0)

/-- R85 for SEQ_BEGIN and SEQ_END: RSV ≠ 0, or COLOR ≠ 0. -/
def reservedNoColor (rsv : BitVec 16) (color : Byte) : Bool := decide (rsv ≠ 0) || decide (color ≠ 0)

/-- Bit k of a colour, the bit of plane k: Decompose (40_datapath.md R102). -/
def planeBit (color : Byte) (k : Nat) : Bool := color.getLsbD k

end Sys2Proof.Machine
end

