-- ==== Sys2Proof/Machine/Aperture.lean ====
section
/-! DEFINITION. FB_READ_BYTE, FB_READ_WORD and FB_WRITE: the read aperture (20_memory.md R59 to R61). -/

namespace Sys2Proof.Machine

/-- All `n` bytes of an aperture read are bytes of its plane: off + n ≤ BUF_BYTES (R59). -/
def apertureHolds (c : Config) (a n : Nat) : Bool := inAperture c a && decide (apertureOffset c a + n ≤ c.bufBytes)

/-- The one-byte read: zext_32(fb[k][off]) (R59). -/
def apertureByte (s : State) (a : Nat) : Word :=
  (fbRead s.cfg (aperturePlane s.cfg a) (apertureOffset s.cfg a) s.fb).setWidth 32

/-- The four-byte read: fb[k][off+3] ++ fb[k][off+2] ++ fb[k][off+1] ++ fb[k][off], little-endian (R59). -/
def apertureWord (s : State) (a : Nat) : Word :=
  fbRead s.cfg (aperturePlane s.cfg a) (apertureOffset s.cfg a + 3) s.fb
    ++ fbRead s.cfg (aperturePlane s.cfg a) (apertureOffset s.cfg a + 2) s.fb
    ++ fbRead s.cfg (aperturePlane s.cfg a) (apertureOffset s.cfg a + 1) s.fb
    ++ fbRead s.cfg (aperturePlane s.cfg a) (apertureOffset s.cfg a) s.fb

/-- FB_READ_BYTE (R59).  Where the offset names no byte of the store it is the bus error of R57 and R59; the decoder
already rejects such a transaction (log 10). -/
def execFbReadByte (addr : Word) (s : State) : Result :=
  perform s
    (if apertureHolds s.cfg addr.toNat 1 then okayRead (apertureByte s addr.toNat) s
     else raiseBusError .read addr s)

/-- FB_READ_WORD (R59).  Misaligned, or with a byte that is not of its plane, it is a bus error; the decoder already
rejects such a transaction (log 10). -/
def execFbReadWord (addr : Word) (s : State) : Result :=
  perform s
    (if addr.toNat % 4 = 0 ∧ apertureHolds s.cfg addr.toNat 4 = true then okayRead (apertureWord s addr.toNat) s
     else raiseBusError .read addr s)

/-- FB_WRITE: always a bus error, whatever the width and the data; no byte of the store changes (R61). -/
def execFbWrite (addr : Word) (_width : Width) (_data : Word) (s : State) : Result :=
  perform s (raiseBusError .write addr s)

end Sys2Proof.Machine
end

