-- ==== Sys2Proof/Machine/Datapath.lean ====
section
/-! DEFINITION. The shared datapath (40_datapath.md R100 to R111) over the store layout (20_memory.md R50, R51), and the
row algorithm (41_pixel_rect.md R123). -/

namespace Sys2Proof.Machine

/-! ### Layout, bounds and the per-plane bit write -/

/-- ByteIndex(px, py) = py * ROW_BYTES + px div 8 (R50). -/
def byteIndex (c : Config) (px py : Nat) : Nat := py * c.rowBytes + px / 8

/-- BitPos(px): 7 - (px mod 8) for MSB_FIRST, px mod 8 for LSB_FIRST (R51). -/
def bitPos (c : Config) (px : Nat) : Nat :=
  match c.bitOrder with
  | .msbFirst => 7 - px % 8
  | .lsbFirst => px % 8

/-- R101's mask: 1 << BitPos(px). -/
def pixelMask (c : Config) (px : Nat) : Byte := 1#8 <<< bitPos c px

/-- InB(px, py): the physical point is in bounds (R100). -/
abbrev InB (c : Config) (px py : Int) : Prop := 0 ≤ px ∧ px < c.fbW ∧ 0 ≤ py ∧ py < c.fbH

/-- PlotPlane(k, px, py, b): a read-modify-write of the one byte of the pixel; nothing out of bounds (R101). -/
def plotPlane (c : Config) (k : Nat) (px py : Int) (b : Bool) (m : Memory) : Memory :=
  if InB c px py then
    fbWrite c k (byteIndex c px.toNat py.toNat)
      ((fbRead c k (byteIndex c px.toNat py.toNat) m &&& ~~~pixelMask c px.toNat)
        ||| (if b then pixelMask c px.toNat else 0)) m
  else m

/-- Plot(px, py, c): the pixel in every plane in lock-step, plane k getting bit k of the colour (R103, R102). -/
def plot (c : Config) (px py : Int) (color : Byte) (m : Memory) : Memory :=
  forRange 0 c.nPlanes (fun k m => plotPlane c k px py (planeBit color k) m) m

/-! ### Rotation -/

/-- OuterBounds(r): the logical size (R104). -/
def outerBounds (c : Config) (r : Rotation) : Nat × Nat :=
  match r with
  | .none => (c.fbW, c.fbH)
  | .cw90 => (c.fbH, c.fbW)
  | .cw180 => (c.fbW, c.fbH)
  | .cw270 => (c.fbH, c.fbW)

/-- The source's `rotate_point(p, bounds)`, the point given in a frame of size (bw, bh) (R105). -/
def rotatePoint (r : Rotation) (bw bh qx qy : Int) : Int × Int :=
  match r with
  | .none => (qx, qy)
  | .cw90 => (bh - qy - 1, qx)
  | .cw180 => (bw - qx - 1, bh - qy - 1)
  | .cw270 => (qy, bw - qx - 1)

/-- Rot(r, qx, qy): the logical point's physical point, the bounds being the outer bounds (R105, C6). -/
def rot (c : Config) (r : Rotation) (qx qy : Int) : Int × Int :=
  rotatePoint r (outerBounds c r).1 (outerBounds c r).2 qx qy

/-- The inverse angle: 90° and 270° undo each other, 180° itself (R106). -/
def inverseRotation : Rotation → Rotation
  | .none => .none
  | .cw90 => .cw270
  | .cw180 => .cw180
  | .cw270 => .cw90

/-- The source's `rotate_rectangle(rect, bounds)`, the area given in a frame of size (bw, bh) (R108). -/
def rotateRect (r : Rotation) (bw bh : Int) (a : Area) : Area :=
  match r with
  | .none => a
  | .cw90 => { x := bh - a.y - a.h, y := a.x, w := a.h, h := a.w }
  | .cw180 => { x := bw - a.x - a.w, y := bh - a.y - a.h, w := a.w, h := a.h }
  | .cw270 => { x := a.y, y := bw - a.x - a.w, w := a.h, h := a.w }

/-- RotRect(r, x, y, w, h): the logical area's physical area (R108). -/
def rotRect (c : Config) (r : Rotation) (a : Area) : Area :=
  rotateRect r (outerBounds c r).1 (outerBounds c r).2 a

/-- LogicalPlot(r, qx, qy, c): rotation on the point, then decomposition of the colour (R110). -/
def logicalPlot (c : Config) (r : Rotation) (qx qy : Int) (color : Byte) (m : Memory) : Memory :=
  plot c (rot c r qx qy).1 (rot c r qx qy).2 color m

/-! ### Clipping and the rectangle fill -/

/-- A clipped area: columns [x0, x1), rows [y0, y1) (R111). -/
structure ClipBox where
  x0 : Int
  x1 : Int
  y0 : Int
  y1 : Int
  deriving DecidableEq, Repr

/-- The bounds `clip` computes before its emptiness test (R111). -/
def clipBounds (c : Config) (a : Area) : ClipBox :=
  { x0 := max a.x 0, x1 := min (a.x + a.w) c.fbW, y0 := max a.y 0, y1 := min (a.y + a.h) c.fbH }

/-- Clip(x', y', w', h'): the intersection with the store bounds, none when EMPTY (R111). -/
def clip (c : Config) (a : Area) : Option ClipBox :=
  if (clipBounds c a).x1 ≤ (clipBounds c a).x0 ∨ (clipBounds c a).y1 ≤ (clipBounds c a).y0 then none
  else some (clipBounds c a)

/-- ceil8(v) = 8 * ceil(v / 8) (R8). -/
def ceil8 (v : Nat) : Nat := 8 * ((v + 7) / 8)

/-- floor8(v) = 8 * floor(v / 8) (R8). -/
def floor8 (v : Nat) : Nat := 8 * (v / 8)

/-- The byte of a byte run: 0xFF or 0x00 (R123). -/
def runByte (b : Bool) : Byte := if b then 0xFF else 0x00

/-- Columns [x0, x1) of one row bit by bit. -/
def plotColumns (c : Config) (k py x0 x1 : Nat) (b : Bool) (m : Memory) : Memory :=
  forRange x0 x1 (fun px m => plotPlane c k px py b m) m

/-- The byte run of a row: bytes [j0, j1) of row py of plane k, one byte store each (R123). -/
def storeRun (c : Config) (k py j0 j1 : Nat) (b : Bool) (m : Memory) : Memory :=
  forRange j0 j1 (fun j m => fbWrite c k (py * c.rowBytes + j) (runByte b) m) m

/-- FillRowPlane(k, py, x0, x1, b): leading bits, byte run, trailing bits; or the whole row bit by bit (R123). -/
def fillRowPlane (c : Config) (k py x0 x1 : Nat) (b : Bool) (m : Memory) : Memory :=
  if ceil8 x0 < floor8 x1 then
    plotColumns c k py (floor8 x1) x1 b
      (storeRun c k py (ceil8 x0 / 8) (floor8 x1 / 8) b
        (plotColumns c k py x0 (ceil8 x0) b m))
  else plotColumns c k py x0 x1 b m

/-- The fill of a clipped box: each plane, each row (R122, R124). -/
def fillBox (c : Config) (box : ClipBox) (color : Byte) (m : Memory) : Memory :=
  forRange 0 c.nPlanes (fun k m =>
    forRange box.y0.toNat box.y1.toNat (fun py m =>
      fillRowPlane c k py box.x0.toNat box.x1.toNat (planeBit color k) m) m) m

/-- The store after FILL_RECT of a logical area: rotate the rectangle, clip it, fill it (R122). -/
def fillArea (c : Config) (r : Rotation) (a : Area) (color : Byte) (m : Memory) : Memory :=
  match clip c (rotRect c r a) with
  | none => m
  | some box => fillBox c box color m

end Sys2Proof.Machine
end

