-- ==== Sys2Proof/Machine/Pixel.lean ====
section
/-! DEFINITION. SET_PIXEL and FILL_RECT (41_pixel_rect.md R120 to R126). -/

namespace Sys2Proof.Machine

/-- SET_PIXEL's effect: LogicalPlot(ROT, sint(POS_X), sint(POS_Y), c) (R120). -/
def setPixelEffect (color : Byte) (s : State) : State :=
  { s with fb := logicalPlot s.cfg s.rot (sint s.posX) (sint s.posY) color s.fb }

/-- SET_PIXEL (R120, R164). -/
def execSetPixel (rsv : BitVec 16) (color : Byte) (s : State) : Result :=
  runCommand s (commandWord rsv color .setPixel) (reservedColor s.cfg rsv color) (requireNoSeq s)
    (setPixelEffect color s)

/-- FILL_RECT's effect (R122). -/
def fillRectEffect (color : Byte) (s : State) : State :=
  { s with fb := fillArea s.cfg s.rot (areaOperand s) color s.fb }

/-- FILL_RECT (R122, R164). -/
def execFillRect (rsv : BitVec 16) (color : Byte) (s : State) : Result :=
  runCommand s (commandWord rsv color .fillRect) (reservedColor s.cfg rsv color) (requireNoSeq s)
    (fillRectEffect color s)

end Sys2Proof.Machine
end

