-- ==== Sys2Proof/Machine/Sequence.lean ====
section
/-! DEFINITION. SEQ_BEGIN, SEQ_PUSH and SEQ_END (42_sequence.md R140 to R149). -/

namespace Sys2Proof.Machine

/-- SEQ_BEGIN's effect: latch the area and the rotation; an area of no position opens nothing (R141, R142). -/
def seqBeginEffect (s : State) : State :=
  if uint s.extW = 0 ∨ uint s.extH = 0 then s
  else
    { s with seq := some { x0 := sint s.posX, y0 := sint s.posY, w := uint s.extW, h := uint s.extH, rot := s.rot,
                           idx := 0 } }

/-- SEQ_BEGIN (R141, R164). -/
def execSeqBegin (rsv : BitVec 16) (color : Byte) (s : State) : Result :=
  runCommand s (commandWord rsv color .seqBegin) (reservedNoColor rsv color) (requireNoSeq s) (seqBeginEffect s)

/-- The logical position of the i-th colour of a sequence: (x0 + i mod w, y0 + i div w) (R143). -/
def seqPosition (q : Sequence) (i : Nat) : Int × Int := (q.x0 + (i % q.w : Nat), q.y0 + (i / q.w : Nat))

/-- The sequence after one colour is consumed: closed when the area is fully walked (R144). -/
def seqAdvance (q : Sequence) : Option Sequence :=
  if q.idx + 1 = q.w * q.h then none else some { q with idx := q.idx + 1 }

/-- SEQ_PUSH's effect on an open sequence: write the next position with the latched rotation, then advance (R144, R145). -/
def seqPushEffect (color : Byte) (s : State) : State :=
  match s.seq with
  | none => s
  | some q =>
    { s with
      fb := logicalPlot s.cfg q.rot (seqPosition q q.idx).1 (seqPosition q q.idx).2 color s.fb
      seq := seqAdvance q }

/-- SEQ_PUSH (R144, R164). -/
def execSeqPush (rsv : BitVec 16) (color : Byte) (s : State) : Result :=
  runCommand s (commandWord rsv color .seqPush) (reservedColor s.cfg rsv color) (requireSeq s) (seqPushEffect color s)

/-- SEQ_END's effect: `seq <- NONE` (R147). -/
def seqEndEffect (s : State) : State := { s with seq := none }

/-- SEQ_END; it has no state check (R147, R164). -/
def execSeqEnd (rsv : BitVec 16) (color : Byte) (s : State) : Result :=
  runCommand s (commandWord rsv color .seqEnd) (reservedNoColor rsv color) none (seqEndEffect s)

end Sys2Proof.Machine
end

