-- ==== Sys2Proof/Machine/Command.lean ====
section
/-! DEFINITION. ILLEGAL_OP (30_encoding.md R84) and the performing of a command word written to CMD (10_state.md R26). -/

namespace Sys2Proof.Machine

/-- ILLEGAL_OP: discarded with ERR_ILLEGAL_OP, whatever its other bits (R84, R161). -/
def execIllegalOp (word : Word) (s : State) : Result := perform s (raiseCmdError .illegalOp word s)

/-- A write of a word to CMD: decode it and perform it completely (R26, R164). -/
def performCommand (w : Word) (s : State) : Result :=
  match opcodeOf (opField w) with
  | some .setPixel => execSetPixel (rsvField w) (colorField w) s
  | some .fillRect => execFillRect (rsvField w) (colorField w) s
  | some .seqBegin => execSeqBegin (rsvField w) (colorField w) s
  | some .seqPush => execSeqPush (rsvField w) (colorField w) s
  | some .seqEnd => execSeqEnd (rsvField w) (colorField w) s
  | none => execIllegalOp w s

end Sys2Proof.Machine
end

