-- ==== Sys2Proof/Machine/Register.lean ====
section
/-! DEFINITION. REG_READ and REG_WRITE: the register map, field by field (10_state.md R22 to R32; 20_memory.md R57). -/

namespace Sys2Proof.Machine

/-- R29's rem: 0 with no sequence open, else w * h - idx. -/
def seqRemaining (q : Option Sequence) : Nat :=
  match q with
  | none => 0
  | some q => q.w * q.h - q.idx

/-- CONFIG[8]: 0 = MSB_FIRST, 1 = LSB_FIRST (R32). -/
def bitOrderBit : BitOrder → BitVec 1
  | .msbFirst => 0
  | .lsbFirst => 1

/-- CONFIG (R32): ROW_BYTES in 31:16, BIT_ORDER in 8, NPLANES in 7:0. -/
def configWord (c : Config) : Word :=
  BitVec.ofNat 16 c.rowBytes ++ 0#7 ++ bitOrderBit c.bitOrder ++ BitVec.ofNat 8 c.nPlanes

/-- The value a legal read of a register returns (R22 to R32).  CMD reads 0 (R26). -/
def regValue (s : State) : Reg → Word
  | .ctrl => (rotationBits s.rot).setWidth 32
  | .status => statusWord s
  | .posX => s.posX
  | .posY => s.posY
  | .extW => s.extW
  | .extH => s.extH
  | .cmd => 0
  | .errInfo => s.errInfo
  | .seqRemainLo => BitVec.ofNat 32 (seqRemaining s.seq)
  | .seqRemainHi => BitVec.ofNat 32 (seqRemaining s.seq / 2 ^ 32)
  | .geomW => BitVec.ofNat 32 s.cfg.fbW
  | .geomH => BitVec.ofNat 32 s.cfg.fbH
  | .logicalW => BitVec.ofNat 32 (outerBounds s.cfg s.rot).1
  | .logicalH => BitVec.ofNat 32 (outerBounds s.cfg s.rot).2
  | .config => configWord s.cfg
  | .apertureBase => BitVec.ofNat 32 s.cfg.fbBase
  | .apertureStride => BitVec.ofNat 32 s.cfg.planeStride

/-- REG_READ: the register's value with OKAY, and no side effect (R57). -/
def execRegRead (r : Reg) (s : State) : Result := perform s (okayRead (regValue s r) s)

/-- A write of an RO register other than STATUS is a bus error at its offset (R57, R165). -/
def writeReadOnly (r : Reg) (s : State) : Result := perform s (raiseBusError .write (regAddr r) s)

/-- REG_WRITE: the register's write behaviour (R23 to R27, R57).  A write of CMD performs the word as a command (R26, log 10). -/
def execRegWrite (r : Reg) (v : Word) (s : State) : Result :=
  match r with
  | .ctrl => perform s (okayWrite { s with rot := rotationOf (v.extractLsb' 0 2) })
  | .status => perform s (okayWrite { s with errBits := clearErrorBits v s.errBits })
  | .posX => perform s (okayWrite { s with posX := v })
  | .posY => perform s (okayWrite { s with posY := v })
  | .extW => perform s (okayWrite { s with extW := v })
  | .extH => perform s (okayWrite { s with extH := v })
  | .cmd => performCommand v s
  | .errInfo => writeReadOnly .errInfo s
  | .seqRemainLo => writeReadOnly .seqRemainLo s
  | .seqRemainHi => writeReadOnly .seqRemainHi s
  | .geomW => writeReadOnly .geomW s
  | .geomH => writeReadOnly .geomH s
  | .logicalW => writeReadOnly .logicalW s
  | .logicalH => writeReadOnly .logicalH s
  | .config => writeReadOnly .config s
  | .apertureBase => writeReadOnly .apertureBase s
  | .apertureStride => writeReadOnly .apertureStride s

end Sys2Proof.Machine
end

