-- ==== Sys2Proof/Machine/Dispatch.lean ====
section
/-! DEFINITION. exec: one arm per constructor of Instr, each one direct call of its meaning. -/

namespace Sys2Proof.Machine

def exec (i : Instr) (s : State) : Host.Outcome State Fault Refusal :=
  match i with
  | .setPixel rsv color => Sys2Proof.Machine.execSetPixel rsv color s
  | .fillRect rsv color => Sys2Proof.Machine.execFillRect rsv color s
  | .seqBegin rsv color => Sys2Proof.Machine.execSeqBegin rsv color s
  | .seqPush rsv color => Sys2Proof.Machine.execSeqPush rsv color s
  | .seqEnd rsv color => Sys2Proof.Machine.execSeqEnd rsv color s
  | .illegalOp word => Sys2Proof.Machine.execIllegalOp word s
  | .regWrite reg value => Sys2Proof.Machine.execRegWrite reg value s
  | .regRead reg => Sys2Proof.Machine.execRegRead reg s
  | .fbReadByte addr => Sys2Proof.Machine.execFbReadByte addr s
  | .fbReadWord addr => Sys2Proof.Machine.execFbReadWord addr s
  | .fbWrite addr width data => Sys2Proof.Machine.execFbWrite addr width data s

end Sys2Proof.Machine
end

