-- ==== Sys2Proof/Machine/Step.lean ====
section
/-! DEFINITION. One step: the host's next action performed completely (20_memory.md R55, R58; 70_reset_and_hazards.md R181). -/

namespace Sys2Proof.Machine

/-- One step.  A configuration that breaks R5 is refused (R6, log 8).  With no host action waiting the block does nothing
(R55, log 4).  A reset is one atomic step (R181).  A transaction is decoded (R87) and its instruction performed; one that
is a bus error before any instruction raises it (R57, R59, log 7). -/
def step (s : State) : Host.Outcome State Fault Refusal :=
  if s.cfg.Legal then
    match takeAction s with
    | none => .next s
    | some (.reset, s') => .next (hostReset s')
    | some (.transact t, s') =>
      match decode s.cfg t with
      | .instr i => exec i s'
      | .busError _ => .next (raiseBusError t.kind t.addr s')
  else .refused .illegalConfiguration

/-- `s` with the CMD write of a table word placed before every other host action, so that the next step performs it
(log 3).  A table word longer than a command places nothing. -/
def State.withFetchWord (s : State) (nbits w : Nat) : State :=
  match tableCommand nbits w with
  | none => s
  | some word => { s with pending := .transact (commandWrite word) :: s.pending }

end Sys2Proof.Machine
end

