-- ==== Sys2Proof/Machine/Assembly.lean ====
section
/-! DEFINITION. The assembler's pseudo-instructions (30_encoding.md R89) as expansions into instructions; the plain lines
of R88 are the instructions themselves, each one transaction by `encode`. -/

namespace Sys2Proof.Machine

/-- The pseudo-instructions of R89.  Numbers are words: a negative decimal is its two's-complement word (R88). -/
inductive Pseudo where
  /-- `ROT <r>` -/
  | rot (r : Word)
  /-- `AREA <x>, <y>, <w>, <h>` -/
  | area (x y w h : Word)
  /-- `PIX <x>, <y>, <c>` -/
  | pix (x y : Word) (color : Byte)
  /-- `RECT <x>, <y>, <w>, <h>, <c>` -/
  | rect (x y w h : Word) (color : Byte)
  /-- `CLEAR` -/
  | clear
  /-- `ACK <mask>` -/
  | ack (mask : Word)
  deriving DecidableEq, Repr

/-- The four register writes of AREA (R89). -/
def areaWrites (x y w h : Word) : List Instr :=
  [.regWrite .posX x, .regWrite .posY y, .regWrite .extW w, .regWrite .extH h]

/-- RECT: the area, then FILL (R89). -/
def rectWrites (x y w h : Word) (color : Byte) : List Instr := areaWrites x y w h ++ [.fillRect 0 color]

/-- The expansion of a pseudo-instruction (R89).  CLEAR's LW, LH are the LOGICAL_W, LOGICAL_H that the program's
rotation `r` gives (R31). -/
def expand (c : Config) (r : Rotation) : Pseudo → List Instr
  | .rot v => [.regWrite .ctrl v]
  | .area x y w h => areaWrites x y w h
  | .pix x y color => [.regWrite .posX x, .regWrite .posY y, .setPixel 0 color]
  | .rect x y w h color => rectWrites x y w h color
  | .clear => rectWrites 0 0 (BitVec.ofNat 32 (outerBounds c r).1) (BitVec.ofNat 32 (outerBounds c r).2) 0
  | .ack mask => [.regWrite .status mask]

/-- `s` with the transactions of `is` waiting before the host's other actions (log 3). -/
def submit (is : List Instr) (s : State) : State :=
  { s with pending := is.map (fun i => HostAction.transact (encode i)) ++ s.pending }

end Sys2Proof.Machine
end

