-- ==== Sys2Proof/Safety.lean ====
section
/-! DEFINITION. What a good state of the block is (10_state.md R33, R34), and the words the statements are said in. -/

namespace Sys2Proof.Machine

/-- The host byte offset `a` is a byte of the store: FB_BASE + k * PLANE_STRIDE + i with k < NPLANES, i < BUF_BYTES (R59). -/
def isStoreAddr (c : Config) (a : Nat) : Bool := inAperture c a && decide (apertureOffset c a < c.bufBytes)

/-- An open sequence is within R33's ranges. -/
abbrev SequenceInRange (q : Sequence) : Prop :=
  -2 ^ 31 ≤ q.x0 ∧ q.x0 < 2 ^ 31 ∧ -2 ^ 31 ≤ q.y0 ∧ q.y0 < 2 ^ 31 ∧
  1 ≤ q.w ∧ q.w < 2 ^ 32 ∧ 1 ≤ q.h ∧ q.h < 2 ^ 32 ∧ q.idx < q.w * q.h

/-- `seq` is NONE or within R33's ranges. -/
def seqInRange (q : Option Sequence) : Bool :=
  match q with
  | none => true
  | some q => decide (SequenceInRange q)

/-- The store list is canonical and lists bytes of the store only (R34). -/
def storeGood (c : Config) (m : Memory) : Bool := m.wf && m.all (fun cell => isStoreAddr c cell.1)

/-- A good state: a configuration that defines a machine (R5, R6), a store of that configuration (R34) and a sequence in
range (R33). -/
abbrev Good (s : State) : Prop := s.cfg.Legal ∧ storeGood s.cfg s.fb = true ∧ seqInRange s.seq = true

/-- The OKAY response of a write (R55, R57). -/
abbrev okay : Option Response := some { status := .okay, data := none }

/-- The OKAY response of a read that returns `v` (R55, R57). -/
abbrev okayData (v : Word) : Option Response := some { status := .okay, data := some v }

/-- The bit of physical pixel (px, py) of plane k in the store (R50, R51). -/
def pixelBit (c : Config) (m : Memory) (k px py : Nat) : Bool := (fbRead c k (byteIndex c px py) m).getLsbD (bitPos c px)

/-- k is a plane and (px, py) a pixel of the store (R34, R100). -/
abbrev InStore (c : Config) (k px py : Nat) : Prop := k < c.nPlanes ∧ px < c.fbW ∧ py < c.fbH

/-- The colour uses bits below NPLANES only (R10, R82). -/
abbrev ColorFits (c : Config) (color : Byte) : Prop := color.toNat < 2 ^ c.nPlanes

/-- The logical point is a pixel of the area (00_scope.md, glossary). -/
abbrev AreaHas (a : Area) (qx qy : Int) : Prop := a.x ≤ qx ∧ qx < a.x + a.w ∧ a.y ≤ qy ∧ qy < a.y + a.h

/-- The physical point is a pixel of the clipped box (R111). -/
abbrev BoxHas (b : ClipBox) (px py : Int) : Prop := b.x0 ≤ px ∧ px < b.x1 ∧ b.y0 ≤ py ∧ py < b.y1

/-- The point is inside the logical bounds of a rotation (R104). -/
abbrev InLogical (c : Config) (r : Rotation) (qx qy : Int) : Prop :=
  0 ≤ qx ∧ qx < (outerBounds c r).1 ∧ 0 ≤ qy ∧ qy < (outerBounds c r).2

/-- STATUS bit `n` of a state (R27). -/
def statusBit (s : State) (n : Nat) : Bool := (statusWord s).getLsbD n

/-- The host byte offset `a` is the byte a pixel write at physical (px, py) stores to in some plane: the write is in
bounds, and `a` is that byte's offset (R101, R103). -/
abbrev PlotStoresTo (c : Config) (p : Int × Int) (a : Nat) : Prop :=
  InB c p.1 p.2 ∧ ∃ k, k < c.nPlanes ∧ a = storeAddr c k (byteIndex c p.1.toNat p.2.toNat)

/-- (px, py) is the physical pixel of some logical pixel of the area (R125's P). -/
abbrev InFilled (c : Config) (r : Rotation) (a : Area) (px py : Nat) : Prop :=
  ∃ qx qy : Int, AreaHas a qx qy ∧ rot c r qx qy = ((px : Int), (py : Int))

/-- The transaction is one of the bus errors of R57, R59 and R61, said on its fields. -/
abbrev IsBusError (c : Config) (t : Transaction) : Prop :=
  (t.addr.toNat < 0x1000 ∧
    (t.width ≠ .word ∨ t.addr.toNat % 4 ≠ 0 ∨ 0x40 < t.addr.toNat ∨ (t.kind = .write ∧ 0x1C ≤ t.addr.toNat))) ∨
  (c.fbBase ≤ t.addr.toNat ∧ t.addr.toNat < c.fbBase + c.nPlanes * c.planeStride ∧
    (t.kind = .write ∨ t.width = .half ∨ t.addr.toNat % t.width.bytes ≠ 0 ∨
      c.bufBytes < (t.addr.toNat - c.fbBase) % c.planeStride + t.width.bytes)) ∨
  (0x1000 ≤ t.addr.toNat ∧ ¬(c.fbBase ≤ t.addr.toNat ∧ t.addr.toNat < c.fbBase + c.nPlanes * c.planeStride))

/-- The transaction is the write of a 32-bit word to an offset of the register block. -/
abbrev IsWordWrite (t : Transaction) (offset : Nat) : Prop :=
  t.kind = .write ∧ t.width = .word ∧ t.addr.toNat = offset

/-- The command word is discarded in the state: its OP is illegal (R84), it is a reserved encoding (R85), or the sequence
state forbids it (R164), said on the fields OP, COLOR and RSV of R81. -/
abbrev CommandIsDiscarded (s : State) (w : Word) : Prop :=
  (w.toNat % 256 = 0 ∨ 5 < w.toNat % 256) ∨
  w.toNat / 65536 ≠ 0 ∨
  ((w.toNat % 256 = 1 ∨ w.toNat % 256 = 2 ∨ w.toNat % 256 = 4) ∧ 2 ^ s.cfg.nPlanes ≤ w.toNat / 256 % 256) ∨
  ((w.toNat % 256 = 3 ∨ w.toNat % 256 = 5) ∧ w.toNat / 256 % 256 ≠ 0) ∨
  ((w.toNat % 256 = 1 ∨ w.toNat % 256 = 2 ∨ w.toNat % 256 = 3) ∧ s.seq ≠ none) ∨
  (w.toNat % 256 = 4 ∧ s.seq = none)

/-- The value fits a 35-bit two's-complement datapath, in R112's open interval. -/
abbrev InThirtyFiveBits (v : Int) : Prop := -2 ^ 34 < v ∧ v < 2 ^ 34

/-- A logical point the block rotates: SET_PIXEL's operand point (R120), or any position of the open sequence (R143). -/
abbrev PointToRotate (s : State) (qx qy : Int) : Prop :=
  (qx = sint s.posX ∧ qy = sint s.posY) ∨
  ∃ (q : Sequence) (i : Nat), s.seq = some q ∧ i < q.w * q.h ∧
    qx = q.x0 + (i % q.w : Nat) ∧ qy = q.y0 + (i / q.w : Nat)

end Sys2Proof.Machine
end

