-- ==== Sys2Proof/Certificates/Slice0/Obligations.lean ====
section
/-! DEFINITION. The statements about the D19 display framebuffer core, from the numbered rules of spec/.  Where a statement
speaks of `State.pending` or of the exact form of `State.response`, it speaks of the model's own port (log 3, log 5). -/

open Sys2Proof Sys2Proof.Machine

/-! ### Encoding (30_encoding.md) -/

/-- Words written out from R81, R83 and R88's encoding column decode to the instruction they stand for.  That a word with a
reserved field (R85, R86: 0x80000005 under every configuration; a COLOR bit at or above NPLANES) decodes to the constructor
of its OP, whose meaning discards it with ERR_RESERVED, is the model's choice (log 6). -/
def Obligations.WrittenOutWordsDecode : Prop :=
  ∀ c : Config,
    decode c { kind := .write, addr := 0x18, width := .word, data := 0x00000101 } = .instr (.setPixel 0 1) ∧
    decode c { kind := .write, addr := 0x18, width := .word, data := 0x00000302 } = .instr (.fillRect 0 3) ∧
    decode c { kind := .write, addr := 0x18, width := .word, data := 0x00000003 } = .instr (.seqBegin 0 0) ∧
    decode c { kind := .write, addr := 0x18, width := .word, data := 0x0000FF04 } = .instr (.seqPush 0 0xFF) ∧
    decode c { kind := .write, addr := 0x18, width := .word, data := 0x80000005 } = .instr (.seqEnd 0x8000 0) ∧
    decode c { kind := .write, addr := 0x18, width := .word, data := 0xFFFF0007 } = .instr (.illegalOp 0xFFFF0007) ∧
    decode c { kind := .write, addr := 0x08, width := .word, data := 0x00000006 } = .instr (.regWrite .posX 6) ∧
    decode c { kind := .read, addr := 0x30, width := .word, data := 0 } = .instr (.regRead .logicalW)

/-- Decode and encode agree, for every instruction of the table with every operand its encoding admits, under every
configuration that defines a machine (R80, R81, R83, R87, R88).  That a command with a reserved field is a form of its
OP's constructor is the model's choice (log 6). -/
def Obligations.DecodeOfEncodeIsIdentity : Prop :=
  ∀ (c : Config) (i : Instr), c.Legal → i.WellFormed c = true → decode c (encode i) = .instr i

/-- Each transaction has one meaning: what it decodes to is a well-formed instruction that encodes to it, the unused data
word of a read apart (R80, R87). -/
def Obligations.DecodedInstructionEncodesBack : Prop :=
  ∀ (c : Config) (t : Transaction) (i : Instr), decode c t = .instr i →
    i.WellFormed c = true ∧
    encode i = (match t.kind with | .write => t | .read => { t with data := 0 })

/-- R86's last sentence: the command words that pass the decode checks are exactly the words it lists. -/
def Obligations.LegalCommandWordsAreExactly : Prop :=
  ∀ (s : State) (w : Word), s.cfg.Legal → s.errBits = 0 →
    (((∃ color : Nat, color < 2 ^ s.cfg.nPlanes ∧
        (w.toNat = color * 256 + 0x01 ∨ w.toNat = color * 256 + 0x02 ∨ w.toNat = color * 256 + 0x04)) ∨
        w.toNat = 3 ∨ w.toNat = 5) ↔
      ∃ t, exec (decodeCommand w) s = .next t ∧ statusBit t 8 = false ∧ statusBit t 9 = false)

/-- The checks of a command word in R164's order, the first failing one raising its error and no other (R84, R85, R164);
`op`, `color`, `rsv` are the fields of R81. -/
def Obligations.CommandChecksInOrder : Prop :=
  ∀ (s : State) (w : Word) (op color rsv : Nat), s.cfg.Legal →
    op = w.toNat % 256 → color = w.toNat / 256 % 256 → rsv = w.toNat / 65536 →
    (if op = 0 ∨ 5 < op then exec (decodeCommand w) s = .next (raiseCmdError .illegalOp w s)
     else if rsv ≠ 0 then exec (decodeCommand w) s = .next (raiseCmdError .reserved w s)
     else if (op = 1 ∨ op = 2 ∨ op = 4) ∧ 2 ^ s.cfg.nPlanes ≤ color then
       exec (decodeCommand w) s = .next (raiseCmdError .reserved w s)
     else if (op = 3 ∨ op = 5) ∧ color ≠ 0 then
       exec (decodeCommand w) s = .next (raiseCmdError .reserved w s)
     else if (op = 1 ∨ op = 2 ∨ op = 3) ∧ s.seq ≠ none then
       exec (decodeCommand w) s = .next (raiseCmdError .seqOpen w s)
     else if op = 4 ∧ s.seq = none then
       exec (decodeCommand w) s = .next (raiseCmdError .noSeq w s)
     else ∃ t, exec (decodeCommand w) s = .next t ∧ t.errBits = s.errBits ∧ t.errInfo = s.errInfo)

/-! ### Errors (60_exceptions.md) -/

/-- raise CmdError sets its own STATUS bit, no other, latches the word, answers OKAY and changes nothing else (R162). -/
def Obligations.CommandErrorRecords : Prop :=
  ∀ (s : State) (w : Word) (e : ErrorBit),
    raiseCmdError e w s =
      { s with errBits := (raiseCmdError e w s).errBits, errInfo := w, response := okay } ∧
    ∀ n < 32, statusBit (raiseCmdError e w s) n = (decide (n = errorCode e) || statusBit s n)

/-- raise BusError sets STATUS bit 12, no other, latches the byte offset, answers ERROR with 0 for a read, and changes
nothing else (R165). -/
def Obligations.BusErrorRecords : Prop :=
  ∀ (s : State) (a : Word) (kind : Kind),
    raiseBusError kind a s =
      { s with
        errBits := (raiseBusError kind a s).errBits
        errInfo := a
        response := some { status := .error, data := if kind = .read then some 0 else none } } ∧
    ∀ n < 32, statusBit (raiseBusError kind a s) n = (decide (n = 12) || statusBit s n)

/-- A transaction is answered with ERROR exactly when it is one of the bus errors of R57, R59 and R61, and then the step
is raise BusError of its offset (R165) and nothing else. -/
def Obligations.ErrorResponseExactlyOnBusErrors : Prop :=
  ∀ (s : State) (tx : Transaction) (rest : List HostAction), s.cfg.Legal → s.pending = .transact tx :: rest →
    (IsBusError s.cfg tx → step s = .next (raiseBusError tx.kind tx.addr { s with pending := rest })) ∧
    (¬IsBusError s.cfg tx →
      ∃ t d, step s = .next t ∧ t.response = some { status := .okay, data := d } ∧ (d = none ↔ tx.kind = .write))

/-- A set error bit stays set until the host writes 1 to it in STATUS or resets the block (R163, R27). -/
def Obligations.ErrorBitsAreSticky : Prop :=
  ∀ (s t : State) (act : HostAction) (rest : List HostAction) (n : Nat),
    s.pending = act :: rest → step s = .next t → 8 ≤ n → n ≤ 12 → statusBit s n = true →
    statusBit t n = true ∨ act = .reset ∨
      ∃ tx, act = .transact tx ∧ IsWordWrite tx 0x04 ∧ tx.data.getLsbD n = true

/-- A transaction raises at most one error (R168): no step sets two STATUS error bits that were clear. -/
def Obligations.AtMostOneErrorRaised : Prop :=
  ∀ (s t : State) (m n : Nat), step s = .next t →
    8 ≤ m → m ≤ 12 → 8 ≤ n → n ≤ 12 →
    statusBit s m = false → statusBit t m = true → statusBit s n = false → statusBit t n = true → m = n

/-- ERR_INFO holds the value of the most recent error (R28, R163): a bus error latches the byte offset, a discarded command
latches the command word, each with its STATUS bit set; every other transaction, a write of STATUS included, leaves it as it
was; reset gives 0. -/
def Obligations.ErrInfoHoldsLatestError : Prop :=
  ∀ (s t : State) (act : HostAction) (rest : List HostAction),
    s.pending = act :: rest → step s = .next t →
    (act = .reset → t.errInfo = 0) ∧
    ∀ tx, act = .transact tx →
      (IsBusError s.cfg tx → t.errInfo = tx.addr ∧ statusBit t 12 = true) ∧
      (IsWordWrite tx 0x18 → CommandIsDiscarded s tx.data →
        t.errInfo = tx.data ∧ ∃ n, 8 ≤ n ∧ n ≤ 11 ∧ statusBit t n = true) ∧
      (¬IsBusError s.cfg tx → ¬(IsWordWrite tx 0x18 ∧ CommandIsDiscarded s tx.data) → t.errInfo = s.errInfo)

/-- ILLEGAL_OP: the command is discarded, STATUS bit 8 set and the word latched, whatever its other bits (R84, R161).  That
an ill-formed term, whose word has a legal OP and which no word decodes to, is discarded in the same way is the model's
choice (log 10). -/
def Obligations.IllegalOpIsDiscarded : Prop :=
  ∀ (s : State) (w : Word), s.cfg.Legal →
    ∃ t, exec (.illegalOp w) s = .next t ∧
      t = { s with errBits := t.errBits, errInfo := w, response := okay } ∧
      ∀ n < 32, statusBit t n = (decide (n = 8) || statusBit s n)

/-! ### The datapath (40_datapath.md, 20_memory.md) -/

/-- R53: the map (k, px, py) ↦ (k, ByteIndex, BitPos) is a bijection from the in-bounds pixels onto the bits of the store,
and the bytes of the store are independent: a store to one leaves every other byte of every plane as it was. -/
def Obligations.StoreLayoutIsBijective : Prop :=
  ∀ c : Config, c.Legal →
    (∀ k px py, InStore c k px py → byteIndex c px py < c.bufBytes ∧ bitPos c px < 8) ∧
    (∀ px py px' py', px < c.fbW → px' < c.fbW →
      byteIndex c px py = byteIndex c px' py' → bitPos c px = bitPos c px' → px = px' ∧ py = py') ∧
    (∀ i b, i < c.bufBytes → b < 8 → ∃ px py, px < c.fbW ∧ py < c.fbH ∧ byteIndex c px py = i ∧ bitPos c px = b) ∧
    (∀ (m : Memory) (k i k' i' : Nat) (v : Byte), storeGood c m = true → k < c.nPlanes → i < c.bufBytes →
      k' < c.nPlanes → i' < c.bufBytes →
      fbRead c k' i' (fbWrite c k i v m) = if k' = k ∧ i' = i then v else fbRead c k' i' m)

/-- R106: Rot(r, ·) is a bijection of ℤ² that takes the logical bounds exactly onto the physical bounds; the inverse angle
over (FB_W, FB_H) undoes it; and a logical write outside the logical bounds never reaches the store. -/
def Obligations.RotationIsBijectiveOnBounds : Prop :=
  ∀ (c : Config) (r : Rotation),
    (∀ px py : Int, ∃! q : Int × Int, rot c r q.1 q.2 = (px, py)) ∧
    (∀ qx qy : Int, InLogical c r qx qy ↔ InB c (rot c r qx qy).1 (rot c r qx qy).2) ∧
    (∀ qx qy : Int,
      rotatePoint (inverseRotation r) c.fbW c.fbH (rot c r qx qy).1 (rot c r qx qy).2 = (qx, qy)) ∧
    (∀ (qx qy : Int) (color : Byte) (m : Memory), ¬InLogical c r qx qy → logicalPlot c r qx qy color m = m)

/-- R107: the inverse angle applied to the inner rectangle over its own size has its corner at (0, 0) and the size of
OuterBounds(r). -/
def Obligations.OuterBoxStartsAtOrigin : Prop :=
  ∀ (c : Config) (r : Rotation),
    rotateRect (inverseRotation r) c.fbW c.fbH { x := 0, y := 0, w := c.fbW, h := c.fbH } =
      { x := 0, y := 0, w := (outerBounds c r).1, h := (outerBounds c r).2 }

/-- R109: the pixel set of RotRect(r, area) is exactly the image under Rot(r, ·) of the area's pixel set; hence the fill of
the transformed rectangle writes the same pixels as rotating each point of the logical area. -/
def Obligations.RotatedRectIsImageOfArea : Prop :=
  ∀ (c : Config) (r : Rotation) (a : Area),
    (∀ px py : Int, AreaHas (rotRect c r a) px py ↔ ∃ qx qy, AreaHas a qx qy ∧ rot c r qx qy = (px, py)) ∧
    ∀ (m : Memory) (color : Byte) (k px py : Nat), c.Legal → storeGood c m = true → InStore c k px py →
      (∀ qx qy : Int, AreaHas a qx qy → rot c r qx qy = ((px : Int), (py : Int)) →
        pixelBit c (fillArea c r a color m) k px py = color.getLsbD k) ∧
      ((∀ qx qy : Int, AreaHas a qx qy → rot c r qx qy ≠ ((px : Int), (py : Int))) →
        pixelBit c (fillArea c r a color m) k px py = pixelBit c m k px py)

/-- R111: Clip is the intersection with the store bounds; EMPTY exactly when that has no pixel; otherwise
0 ≤ x0 < x1 ≤ FB_W and 0 ≤ y0 < y1 ≤ FB_H. -/
def Obligations.ClipIsIntersection : Prop :=
  ∀ (c : Config) (a : Area),
    (clip c a = none ↔ ∀ px py, ¬(AreaHas a px py ∧ InB c px py)) ∧
    ∀ b, clip c a = some b →
      (∀ px py, BoxHas b px py ↔ AreaHas a px py ∧ InB c px py) ∧
      0 ≤ b.x0 ∧ b.x0 < b.x1 ∧ b.x1 ≤ c.fbW ∧ 0 ≤ b.y0 ∧ b.y0 < b.y1 ∧ b.y1 ≤ c.fbH

/-- R112: over the legal register values every intermediate result of R105, R108 and R111 lies in (-2^34, 2^34): for every
point that is rotated (SET_PIXEL's and every position of an open sequence) the point, the differences R105 forms from it and
Rot itself; for the area operand its far corner, the differences R108 forms from it and RotRect itself; and the sums of Clip
with the bounds they give. -/
def Obligations.DatapathFitsThirtyFiveBits : Prop :=
  ∀ (s : State) (r : Rotation) (bw bh : Int), s.cfg.Legal → seqInRange s.seq = true →
    bw = (outerBounds s.cfg r).1 → bh = (outerBounds s.cfg r).2 →
    (∀ qx qy : Int, PointToRotate s qx qy →
      InThirtyFiveBits qx ∧ InThirtyFiveBits qy ∧
      InThirtyFiveBits (bw - qx) ∧ InThirtyFiveBits (bw - qx - 1) ∧
      InThirtyFiveBits (bh - qy) ∧ InThirtyFiveBits (bh - qy - 1) ∧
      InThirtyFiveBits (rot s.cfg r qx qy).1 ∧ InThirtyFiveBits (rot s.cfg r qx qy).2) ∧
    (∀ a : Area, a = areaOperand s →
      InThirtyFiveBits (a.x + a.w) ∧ InThirtyFiveBits (a.x + a.w - 1) ∧
      InThirtyFiveBits (a.y + a.h) ∧ InThirtyFiveBits (a.y + a.h - 1) ∧
      InThirtyFiveBits (bw - a.x) ∧ InThirtyFiveBits (bw - a.x - a.w) ∧
      InThirtyFiveBits (bh - a.y) ∧ InThirtyFiveBits (bh - a.y - a.h)) ∧
    (∀ b : Area, b = rotRect s.cfg r (areaOperand s) →
      InThirtyFiveBits b.x ∧ InThirtyFiveBits b.y ∧ InThirtyFiveBits b.w ∧ InThirtyFiveBits b.h ∧
      InThirtyFiveBits (b.x + b.w) ∧ InThirtyFiveBits (b.y + b.h) ∧
      InThirtyFiveBits (clipBounds s.cfg b).x0 ∧ InThirtyFiveBits (clipBounds s.cfg b).x1 ∧
      InThirtyFiveBits (clipBounds s.cfg b).y0 ∧ InThirtyFiveBits (clipBounds s.cfg b).y1)

/-- R126: the byte-run tier gives the same store as writing every pixel of the row bit by bit, for the run alone (bytes
a div 8 to e div 8 - 1 against the pixels [a, e)) and for the whole row. -/
def Obligations.RowTiersGiveSameStore : Prop :=
  ∀ (c : Config) (m : Memory) (k py : Nat) (b : Bool), c.Legal → storeGood c m = true → k < c.nPlanes → py < c.fbH →
    (∀ a e : Nat, a < e → e ≤ c.fbW → a % 8 = 0 → e % 8 = 0 →
      storeRun c k py (a / 8) (e / 8) b m = plotColumns c k py a e b m) ∧
    (∀ x0 x1 : Nat, x0 < x1 → x1 ≤ c.fbW → fillRowPlane c k py x0 x1 b m = plotColumns c k py x0 x1 b m)

/-! ### Pixel and rectangle writes (41_pixel_rect.md) -/

/-- R121: SET_PIXEL that is not discarded writes colour bit k into the pixel Rot(r, x, y) of every plane k when it is in
bounds, and changes no other bit, no other byte and no register. -/
def Obligations.SetPixelWritesOneLogicalPixel : Prop :=
  ∀ (s : State) (color : Byte), Good s → s.seq = none → ColorFits s.cfg color →
    ∃ t, exec (.setPixel 0 color) s = .next t ∧
      t = { s with fb := t.fb, response := okay } ∧
      (∀ k px py, InStore s.cfg k px py →
        pixelBit s.cfg t.fb k px py =
          if rot s.cfg s.rot (sint s.posX) (sint s.posY) = ((px : Int), (py : Int)) then color.getLsbD k
          else pixelBit s.cfg s.fb k px py) ∧
      (∀ a, ¬PlotStoresTo s.cfg (rot s.cfg s.rot (sint s.posX) (sint s.posY)) a → t.fb.read a = s.fb.read a)

/-- R125: FILL_RECT that is not discarded gives every plane k's pixel the bit c[k] when it is the in-bounds image of a
pixel of the area, and changes no other pixel, no byte that holds none of them, and no register. -/
def Obligations.FillRectFillsClippedArea : Prop :=
  ∀ (s : State) (color : Byte), Good s → s.seq = none → ColorFits s.cfg color →
    ∃ t, exec (.fillRect 0 color) s = .next t ∧
      t = { s with fb := t.fb, response := okay } ∧
      (∀ k px py, InStore s.cfg k px py →
        (InFilled s.cfg s.rot (areaOperand s) px py → pixelBit s.cfg t.fb k px py = color.getLsbD k) ∧
        (¬InFilled s.cfg s.rot (areaOperand s) px py →
          pixelBit s.cfg t.fb k px py = pixelBit s.cfg s.fb k px py)) ∧
      (∀ a, (∀ k px py, InStore s.cfg k px py → InFilled s.cfg s.rot (areaOperand s) px py →
          a ≠ storeAddr s.cfg k (byteIndex s.cfg px py)) → t.fb.read a = s.fb.read a)

/-- A fill of the full logical bounds gives every byte of plane k the value 0xFF where c[k] = 1 and 0x00 where c[k] = 0
(R52, R122's corner case). -/
def Obligations.FullFillGivesUniformBytes : Prop :=
  ∀ (s : State) (color : Byte), Good s → s.seq = none → ColorFits s.cfg color →
    s.posX = 0 → s.posY = 0 →
    s.extW.toNat = (outerBounds s.cfg s.rot).1 → s.extH.toNat = (outerBounds s.cfg s.rot).2 →
    ∃ t, exec (.fillRect 0 color) s = .next t ∧
      ∀ k i, k < s.cfg.nPlanes → i < s.cfg.bufBytes →
        fbRead s.cfg k i t.fb = if color.getLsbD k then 0xFF else 0x00

/-- A command's store writes are seen by the very next aperture read (R62, R185): after SET_PIXEL of an in-bounds point,
FB_READ_BYTE of its byte in plane k returns colour bit k at the pixel's bit position. -/
def Obligations.SetPixelIsReadBack : Prop :=
  ∀ (s : State) (color : Byte) (k px py : Nat), Good s → s.seq = none → ColorFits s.cfg color →
    InStore s.cfg k px py → rot s.cfg s.rot (sint s.posX) (sint s.posY) = ((px : Int), (py : Int)) →
    ∃ t u v, exec (.setPixel 0 color) s = .next t ∧
      exec (.fbReadByte (BitVec.ofNat 32 (storeAddr s.cfg k (byteIndex s.cfg px py)))) t = .next u ∧
      u.response = okayData v ∧ v.getLsbD (bitPos s.cfg px) = color.getLsbD k ∧ v.toNat < 256

/-! ### Sequence fill (42_sequence.md) -/

/-- SEQ_BEGIN with no sequence open latches the operand registers and the rotation and writes no pixel; an area of zero
width or height opens nothing (R141). -/
def Obligations.SeqBeginLatchesArea : Prop :=
  ∀ s : State, s.cfg.Legal → s.seq = none →
    ((s.extW = 0 ∨ s.extH = 0) → exec (.seqBegin 0 0) s = .next { s with response := okay }) ∧
    (¬(s.extW = 0 ∨ s.extH = 0) →
      exec (.seqBegin 0 0) s =
        .next { s with
          seq := some { x0 := s.posX.toInt, y0 := s.posY.toInt, w := s.extW.toNat, h := s.extH.toNat, rot := s.rot,
                        idx := 0 }
          response := okay })

/-- SEQ_PUSH writes the colour at position (x0 + idx mod w, y0 + idx div w) under the latched rotation, consumes exactly
one colour whether or not that position is in bounds, closes the sequence at its last position, and changes nothing else
(R143, R144, R145). -/
def Obligations.SeqPushWritesNextPosition : Prop :=
  ∀ (s : State) (q : Sequence) (color : Byte) (p : Int × Int), Good s → s.seq = some q → ColorFits s.cfg color →
    p = rot s.cfg q.rot (q.x0 + (q.idx % q.w : Nat)) (q.y0 + (q.idx / q.w : Nat)) →
    ∃ t, exec (.seqPush 0 color) s = .next t ∧
      t = { s with
        fb := t.fb
        seq := if q.idx + 1 = q.w * q.h then none else some { q with idx := q.idx + 1 }
        response := okay } ∧
      (∀ k px py, InStore s.cfg k px py →
        pixelBit s.cfg t.fb k px py =
          if p = ((px : Int), (py : Int)) then color.getLsbD k else pixelBit s.cfg s.fb k px py) ∧
      (∀ a, ¬PlotStoresTo s.cfg p a → t.fb.read a = s.fb.read a)

/-- SEQ_END closes the sequence, writes no pixel, and is no error when none is open (R147). -/
def Obligations.SeqEndCloses : Prop :=
  ∀ s : State, s.cfg.Legal → exec (.seqEnd 0 0) s = .next { s with seq := none, response := okay }

/-- An open sequence keeps the area and the rotation it latched: whatever the host does next, it is closed, or kept with
every latched value, its cursor unmoved or moved on by one (R142).  It moves only by a SEQ_PUSH word and closes only by a
SEQ_PUSH word, a SEQ_END word or a reset. -/
def Obligations.OpenSequenceKeepsLatchedValues : Prop :=
  ∀ (s t : State) (q : Sequence) (act : HostAction) (rest : List HostAction),
    s.seq = some q → s.pending = act :: rest → step s = .next t → t.seq ≠ some q →
    act = .reset ∨
    ∃ tx, act = .transact tx ∧ IsWordWrite tx 0x18 ∧
      ((tx.data.toNat % 256 = 5 ∧ t.seq = none) ∨
       (tx.data.toNat % 256 = 4 ∧
        t.seq = if q.idx + 1 = q.w * q.h then none else some { q with idx := q.idx + 1 }))

/-- R148: SEQ_BEGIN, one SEQ_PUSH for each of the first m = min(L, w * h) colours of a sequence, and SEQ_END, run with no
sequence open, leave the store as the source's fill_from_sequence does: colour i at position (x + i mod w, y + i div w)
where that is in bounds, every other pixel and every byte that holds no written pixel as before, and nothing else changed.  After j pushes exactly j colours are
consumed, the last push of a full area having closed the sequence; the final SEQ_END only closes it, so it is a no-op when
m = w * h.  How the run's transactions come to wait on the port is the model's own (log 3). -/
def Obligations.SequenceRunIsFillFromSequence : Prop :=
  ∀ (s : State) (colors : List Byte) (m : Nat) (start : State), Good s → s.seq = none →
    s.extW ≠ 0 → s.extH ≠ 0 → (∀ color ∈ colors, ColorFits s.cfg color) →
    m = min colors.length (s.extW.toNat * s.extH.toNat) →
    start = submit (.seqBegin 0 0 :: ((colors.take m).map (fun color => Instr.seqPush 0 color) ++ [.seqEnd 0 0])) s →
    ∃ t : State,
      Sys2Proof.core.run (m + 2) start = .next t ∧
      t = { s with fb := t.fb, response := okay } ∧
      (∀ (i k px py : Nat) (color : Byte), i < m → colors[i]? = some color → InStore s.cfg k px py →
        rot s.cfg s.rot (s.posX.toInt + (i % s.extW.toNat : Nat)) (s.posY.toInt + (i / s.extW.toNat : Nat))
          = ((px : Int), (py : Int)) →
        pixelBit s.cfg t.fb k px py = color.getLsbD k) ∧
      (∀ k px py, InStore s.cfg k px py →
        (∀ i, i < m →
          rot s.cfg s.rot (s.posX.toInt + (i % s.extW.toNat : Nat)) (s.posY.toInt + (i / s.extW.toNat : Nat))
            ≠ ((px : Int), (py : Int))) →
        pixelBit s.cfg t.fb k px py = pixelBit s.cfg s.fb k px py) ∧
      (∀ a,
        (∀ i, i < m → ¬PlotStoresTo s.cfg
          (rot s.cfg s.rot (s.posX.toInt + (i % s.extW.toNat : Nat)) (s.posY.toInt + (i / s.extW.toNat : Nat))) a) →
        t.fb.read a = s.fb.read a) ∧
      (∀ j, j ≤ m → ∃ u : State,
        Sys2Proof.core.run (j + 1) start = .next u ∧
        u.seq = (if j = s.extW.toNat * s.extH.toNat then none
          else some { x0 := s.posX.toInt, y0 := s.posY.toInt, w := s.extW.toNat, h := s.extH.toNat, rot := s.rot, idx := j }) ∧
        (j = m → t = { u with seq := none, pending := s.pending }))

/-! ### Registers (10_state.md) -/

/-- The constant registers (R30, R32): GEOM_W, GEOM_H, CONFIG, APERTURE_BASE and APERTURE_STRIDE read the configuration,
with OKAY and no side effect. -/
def Obligations.ConstantRegistersRead : Prop :=
  ∀ (s : State) (r : Reg) (v : Nat), s.cfg.Legal →
    (r, v) ∈ [(Reg.geomW, s.cfg.fbW), (Reg.geomH, s.cfg.fbH),
      (Reg.config, s.cfg.nPlanes + (if s.cfg.bitOrder = .lsbFirst then 256 else 0) + s.cfg.rowBytes * 65536),
      (Reg.apertureBase, s.cfg.fbBase), (Reg.apertureStride, s.cfg.planeStride)] →
    ∃ w : Word, w.toNat = v ∧ exec (.regRead r) s = .next { s with response := okayData w }

/-- LOGICAL_W and LOGICAL_H read the outer bounding box of the current rotation: (FB_W, FB_H) for ROT 0 and 2,
(FB_H, FB_W) for ROT 1 and 3 (R31, R104). -/
def Obligations.LogicalSizeFollowsRotation : Prop :=
  ∀ (s : State) (bw bh : Nat), s.cfg.Legal →
    (bw, bh) = (if s.rot = .none ∨ s.rot = .cw180 then (s.cfg.fbW, s.cfg.fbH) else (s.cfg.fbH, s.cfg.fbW)) →
    ∃ v w : Word, v.toNat = bw ∧ w.toNat = bh ∧
      exec (.regRead .logicalW) s = .next { s with response := okayData v } ∧
      exec (.regRead .logicalH) s = .next { s with response := okayData w }

/-- The operand registers and ERR_INFO read the word they hold (R24, R25, R28), CMD reads 0 (R26), and CTRL reads ROT
zero-extended (R23), each with OKAY and no side effect. -/
def Obligations.StoredRegistersRead : Prop :=
  ∀ (s : State) (r : Reg) (v : Word), s.cfg.Legal →
    (r, v) ∈ [(Reg.posX, s.posX), (Reg.posY, s.posY), (Reg.extW, s.extW), (Reg.extH, s.extH),
      (Reg.errInfo, s.errInfo), (Reg.cmd, 0),
      (Reg.ctrl, match s.rot with | .none => 0 | .cw90 => 1 | .cw180 => 2 | .cw270 => 3)] →
    exec (.regRead r) s = .next { s with response := okayData v }

/-- SEQ_REMAIN_LO and SEQ_REMAIN_HI read the low and high halves of rem: 0 with no sequence open, else w * h - idx, which
is at least 1 and at most (2^32 - 1)^2 (R29). -/
def Obligations.SeqRemainReadsRemaining : Prop :=
  ∀ (s : State) (rem : Nat), s.cfg.Legal → seqInRange s.seq = true →
    rem = (match s.seq with | none => 0 | some q => q.w * q.h - q.idx) →
    (s.seq ≠ none → 1 ≤ rem ∧ rem ≤ (2 ^ 32 - 1) ^ 2) ∧
    ∃ lo hi : Word, lo.toNat + 2 ^ 32 * hi.toNat = rem ∧
      exec (.regRead .seqRemainLo) s = .next { s with response := okayData lo } ∧
      exec (.regRead .seqRemainHi) s = .next { s with response := okayData hi }

/-- STATUS reads bit 0 as 1 exactly when a sequence is open, bits 8 to 12 as the error bits, and every other bit as 0;
a write of v clears exactly the error bits set in v and changes nothing else (R27). -/
def Obligations.StatusReadsAndClearsByOnes : Prop :=
  ∀ (s : State) (v : Word), s.cfg.Legal →
    (∃ w : Word, exec (.regRead .status) s = .next { s with response := okayData w } ∧
      ∀ n < 32, w.getLsbD n =
        if n = 0 then decide (s.seq ≠ none) else decide (8 ≤ n ∧ n ≤ 12) && s.errBits.getLsbD (n - 8)) ∧
    ∃ t, exec (.regWrite .status v) s = .next t ∧
      t = { s with errBits := t.errBits, response := okay } ∧
      ∀ j < 5, t.errBits.getLsbD j = (s.errBits.getLsbD j && !v.getLsbD (8 + j))

/-- A write of CTRL stores v[1:0] into ROT, ignores v[31:2] and changes nothing else; reading it back gives v[1:0]
(R23). -/
def Obligations.CtrlWriteSetsRotation : Prop :=
  ∀ (s : State) (v : Word), s.cfg.Legal →
    ∃ (t : State) (w : Word), exec (.regWrite .ctrl v) s = .next t ∧
      t = { s with rot := t.rot, response := okay } ∧
      w.toNat = v.toNat % 4 ∧ exec (.regRead .ctrl) t = .next { t with response := okayData w }

/-- A write of POS_X, POS_Y, EXT_W or EXT_H stores all 32 bits into that register and changes nothing else, an open
sequence included (R24, R25, R142). -/
def Obligations.OperandRegisterWritesStore : Prop :=
  ∀ (s : State) (v : Word), s.cfg.Legal →
    exec (.regWrite .posX v) s = .next { s with posX := v, response := okay } ∧
    exec (.regWrite .posY v) s = .next { s with posY := v, response := okay } ∧
    exec (.regWrite .extW v) s = .next { s with extW := v, response := okay } ∧
    exec (.regWrite .extH v) s = .next { s with extH := v, response := okay }

/-- A write of a read-only register is a bus error at its offset: ERR_ACCESS set, ERR_INFO the offset, ERROR, nothing
else (R57, R22, R165). -/
def Obligations.ReadOnlyWritesAreBusErrors : Prop :=
  ∀ (s : State) (v : Word) (r : Reg) (offset : Nat), s.cfg.Legal →
    (r, offset) ∈ [(Reg.errInfo, 0x1C), (Reg.seqRemainLo, 0x20), (Reg.seqRemainHi, 0x24), (Reg.geomW, 0x28),
      (Reg.geomH, 0x2C), (Reg.logicalW, 0x30), (Reg.logicalH, 0x34), (Reg.config, 0x38), (Reg.apertureBase, 0x3C),
      (Reg.apertureStride, 0x40)] →
    exec (.regWrite r v) s =
      .next { s with
        errBits := s.errBits ||| 0b10000
        errInfo := BitVec.ofNat 32 offset
        response := some { status := .error, data := none } }

/-- A word written to CMD is performed as the command it decodes to, and a read of CMD answers 0 with OKAY and has no side
effect (R26).  The second clause is about the ill-formed term REG_WRITE of CMD, which no transaction decodes to: that it
too performs the word is the model's choice (log 10). -/
def Obligations.CmdWritePerformsCommand : Prop :=
  ∀ (s : State) (w : Word) (rest : List HostAction), s.cfg.Legal →
    s.pending = .transact { kind := .write, addr := 0x18, width := .word, data := w } :: rest →
    step s = exec (decodeCommand w) { s with pending := rest } ∧
    exec (.regWrite .cmd w) s = exec (decodeCommand w) s ∧
    exec (.regRead .cmd) s = .next { s with response := okayData 0 }

/-! ### The aperture (20_memory.md) -/

/-- FB_READ_BYTE of byte i of plane k returns it zero-extended, with OKAY and no side effect (R59, R60). -/
def Obligations.ApertureByteRead : Prop :=
  ∀ (s : State) (k i : Nat), s.cfg.Legal → k < s.cfg.nPlanes → i < s.cfg.bufBytes →
    exec (.fbReadByte (BitVec.ofNat 32 (s.cfg.fbBase + k * s.cfg.planeStride + i))) s =
      .next { s with response := okayData ((fbRead s.cfg k i s.fb).setWidth 32) }

/-- FB_READ_WORD of bytes i to i + 3 of plane k, i a multiple of 4, returns them little-endian, with OKAY and no side
effect (R59, R60). -/
def Obligations.ApertureWordReadIsLittleEndian : Prop :=
  ∀ (s : State) (k i : Nat), s.cfg.Legal → k < s.cfg.nPlanes → i + 4 ≤ s.cfg.bufBytes → i % 4 = 0 →
    ∃ v : Word, exec (.fbReadWord (BitVec.ofNat 32 (s.cfg.fbBase + k * s.cfg.planeStride + i))) s =
        .next { s with response := okayData v } ∧
      v.toNat = (fbRead s.cfg k i s.fb).toNat + (fbRead s.cfg k (i + 1) s.fb).toNat * 2 ^ 8 +
        (fbRead s.cfg k (i + 2) s.fb).toNat * 2 ^ 16 + (fbRead s.cfg k (i + 3) s.fb).toNat * 2 ^ 24

/-- R61: any write transaction in the aperture, of any width, is raise BusError(addr) and changes no byte of the store. -/
def Obligations.ApertureWriteIsBusError : Prop :=
  ∀ (s : State) (a : Word) (n : Width) (d : Word), s.cfg.Legal →
    s.cfg.fbBase ≤ a.toNat → a.toNat < s.cfg.fbBase + s.cfg.nPlanes * s.cfg.planeStride →
    decode s.cfg { kind := .write, addr := a, width := n, data := d } = .instr (.fbWrite a n d) ∧
    exec (.fbWrite a n d) s =
      .next { s with
        errBits := s.errBits ||| 0b10000
        errInfo := a
        response := some { status := .error, data := none } }

/-! ### The machine as a whole -/

/-- When the transaction at the head of the port decodes to an instruction, the step is exec of it on the state with that
transaction taken off the port; the port is the model's own (log 3). -/
def Obligations.StepRunsDecodedInstruction : Prop :=
  ∀ (s : State) (tx : Transaction) (rest : List HostAction) (i : Instr), s.cfg.Legal →
    s.pending = .transact tx :: rest → decode s.cfg tx = .instr i →
    step s = exec i { s with pending := rest }

/-- R6: a configuration that breaks a constraint of R5 defines no machine, and the model refuses it.  That both every
instruction and every step are where it is refused is the model's reading (log 8). -/
def Obligations.IllegalConfigurationIsRefused : Prop :=
  ∀ (s : State) (i : Instr), ¬s.cfg.Legal →
    exec i s = .refused .illegalConfiguration ∧ step s = .refused .illegalConfiguration

/-- No transaction can hang the block (R174): whatever the host does, the step answers a next state, the action is taken
off the port and a transaction is answered.  With no action waiting the step changes nothing: the model's choice (log 4). -/
def Obligations.EveryActionIsAnswered : Prop :=
  ∀ s : State, s.cfg.Legal →
    ∃ t, step s = .next t ∧
      (s.pending = [] → t = s) ∧
      (∀ act rest, s.pending = act :: rest →
        t.pending = rest ∧ (act ≠ .reset → t.response ≠ none))

/-- Reset: from any state the host's reset gives the reset state of the same configuration, an open sequence closed and
the store zero (R180, R181).  That the host's later actions still wait and that no response stands is the model's choice
(log 3, log 5). -/
def Obligations.HostResetGivesResetState : Prop :=
  ∀ (s : State) (rest : List HostAction), s.cfg.Legal → s.pending = .reset :: rest →
    step s = .next { State.resetWith s.cfg with pending := rest }

/-- R37: after reset every piece of state has its value, for every configuration. -/
def Obligations.ResetValuesHold : Prop :=
  ∀ (c : Config) (s : State), c.Legal → s = State.resetWith c →
    (∀ k i, k < c.nPlanes → i < c.bufBytes → fbRead c k i s.fb = 0x00) ∧
    s.cfg = c ∧ s.rot = .none ∧ s.posX = 0 ∧ s.posY = 0 ∧ s.extW = 0 ∧ s.extH = 0 ∧
    statusWord s = 0 ∧ s.errInfo = 0 ∧ s.seq = none ∧
    regValue s .ctrl = 0 ∧ regValue s .seqRemainLo = 0 ∧ regValue s .seqRemainHi = 0 ∧
    (regValue s .logicalW).toNat = c.fbW ∧ (regValue s .logicalH).toNat = c.fbH ∧
    (regValue s .geomW).toNat = c.fbW ∧ (regValue s .geomH).toNat = c.fbH ∧
    (regValue s .config).toNat =
      c.nPlanes + (if c.bitOrder = .lsbFirst then 256 else 0) + c.rowBytes * 65536 ∧
    (regValue s .apertureBase).toNat = c.fbBase ∧ (regValue s .apertureStride).toNat = c.planeStride

/-- The reset state of every configuration that defines a machine is good, and so is `State.reset`, whose configuration is
the model's choice (log 2). -/
def Obligations.ResetStateIsGood : Prop := (∀ c : Config, c.Legal → Good (State.resetWith c)) ∧ Good State.reset

/-- Every step from a good state gives a good state: the configuration stays legal, the store list stays canonical and
lists bytes of the store only (R34), and an open sequence stays within R33's ranges with its cursor below w * h. -/
def Obligations.StepKeepsGood : Prop := ∀ s t : State, Good s → step s = .next t → Good t

/-- R34: the store changes only by a SET_PIXEL, FILL_RECT or SEQ_PUSH word written to CMD, or by reset. -/
def Obligations.StoreChangesOnlyByDrawing : Prop :=
  ∀ (s t : State) (act : HostAction) (rest : List HostAction),
    s.pending = act :: rest → step s = .next t → t.fb ≠ s.fb →
    act = .reset ∨
    ∃ tx, act = .transact tx ∧ IsWordWrite tx 0x18 ∧
      (tx.data.toNat % 256 = 1 ∨ tx.data.toNat % 256 = 2 ∨ tx.data.toNat % 256 = 4)

/-- R36 and R5: POS_X, POS_Y, EXT_W, EXT_H and ROT are written only by the host's write of that register or by reset, and
the configuration never changes. -/
def Obligations.OperandRegistersChangeOnlyByHost : Prop :=
  ∀ (s t : State) (act : HostAction) (rest : List HostAction),
    s.pending = act :: rest → step s = .next t →
    t.cfg = s.cfg ∧
    (act ≠ .reset →
      (t.rot ≠ s.rot → ∃ tx, act = .transact tx ∧ IsWordWrite tx 0x00) ∧
      (t.posX ≠ s.posX → ∃ tx, act = .transact tx ∧ IsWordWrite tx 0x08 ∧ t.posX = tx.data) ∧
      (t.posY ≠ s.posY → ∃ tx, act = .transact tx ∧ IsWordWrite tx 0x0C ∧ t.posY = tx.data) ∧
      (t.extW ≠ s.extW → ∃ tx, act = .transact tx ∧ IsWordWrite tx 0x10 ∧ t.extW = tx.data) ∧
      (t.extH ≠ s.extH → ∃ tx, act = .transact tx ∧ IsWordWrite tx 0x14 ∧ t.extH = tx.data))

/-- CLEAR (R89), run in a frame of any rotation with no sequence open, zeroes every byte of every plane and raises no
error. -/
def Obligations.ClearZeroesTheStore : Prop :=
  ∀ s : State, Good s → s.seq = none →
    ∃ t : State, Sys2Proof.core.run 5 (submit (expand s.cfg s.rot .clear) s) = .next t ∧
      t.errBits = s.errBits ∧ t.pending = s.pending ∧
      ∀ k i, k < s.cfg.nPlanes → i < s.cfg.bufBytes → fbRead s.cfg k i t.fb = 0x00
end

