-- ==== Sys2Proof/Laws/Memory.lean ====
section
/-! SUPPORT. The laws of the store's memory: a read after a write, the canonical form kept by every write, and two
canonical memories that read alike are equal. -/

namespace Sys2Proof.Machine

theorem Memory.read_nil (a : Nat) : Memory.read [] a = Memory.unlisted := rfl

theorem Memory.read_of_above {m : Memory} {a b : Nat} (h : m.above a = true) (hb : b ≤ a) :
    m.read b = Memory.unlisted := by
  induction m with
  | nil => rfl
  | cons cell rest ih =>
    obtain ⟨d, x⟩ := cell
    simp only [Memory.above, Bool.and_eq_true, decide_eq_true_eq] at h
    rw [Memory.read, if_neg (by omega), ih h.2]

theorem Memory.above_mono {m : Memory} {a b : Nat} (h : m.above a = true) (hb : b ≤ a) : m.above b = true := by
  induction m with
  | nil => rfl
  | cons cell rest ih =>
    obtain ⟨d, x⟩ := cell
    simp only [Memory.above, Bool.and_eq_true, decide_eq_true_eq] at h ⊢
    exact ⟨by omega, ih h.2⟩

theorem Memory.above_write {m : Memory} {a b : Nat} {v : Byte} (h : m.above b = true) (hb : b < a) :
    (m.write a v).above b = true := by
  induction m with
  | nil => unfold Memory.write; split <;> simp_all [Memory.above]
  | cons cell rest ih =>
    obtain ⟨d, x⟩ := cell
    simp only [Memory.above, Bool.and_eq_true, decide_eq_true_eq] at h
    unfold Memory.write
    split_ifs <;> simp_all [Memory.above]

/-- Every write keeps the canonical form. -/
theorem Memory.write_wf {m : Memory} {a : Nat} {v : Byte} (h : m.wf = true) : (m.write a v).wf = true := by
  induction m with
  | nil => unfold Memory.write; split <;> simp_all [Memory.wf, Memory.above]
  | cons cell rest ih =>
    obtain ⟨d, x⟩ := cell
    simp only [Memory.wf, Bool.and_eq_true, decide_eq_true_eq] at h
    unfold Memory.write
    split_ifs with h1 h2 h3 h4
    · simp_all [Memory.wf]
    · simp only [Memory.wf, Memory.above, Bool.and_eq_true, decide_eq_true_eq]
      exact ⟨⟨h2, h1, Memory.above_mono h.1.2 (by omega)⟩, h⟩
    · exact h.2
    · subst h3; simp_all [Memory.wf]
    · simp only [Memory.wf, Bool.and_eq_true, decide_eq_true_eq]
      exact ⟨⟨h.1.1, Memory.above_write h.1.2 (by omega)⟩, ih h.2⟩

/-- A read of any byte after a write: the written byte at its address, every other byte as before. -/
theorem Memory.read_write {m : Memory} (h : m.wf = true) (a b : Nat) (v : Byte) :
    (m.write a v).read b = if b = a then v else m.read b := by
  induction m with
  | nil => unfold Memory.write; split_ifs <;> simp_all [Memory.read]
  | cons cell rest ih =>
    obtain ⟨d, x⟩ := cell
    simp only [Memory.wf, Bool.and_eq_true, decide_eq_true_eq] at h
    unfold Memory.write
    split_ifs with h1 h2 h3 h4 h5 h6 h7
    · subst h3; subst h2
      rw [Memory.read, if_neg (by omega), Memory.read_of_above h.1.2 (by omega)]
    · rfl
    · simp [Memory.read, h4]
    · simp [Memory.read, h4]
    · subst h5; subst h6; subst h7
      exact Memory.read_of_above h.1.2 (le_refl _)
    · subst h5
      simp only [Memory.read]
      rw [if_neg (by omega)]
    · simp [Memory.read, *]
    · subst h5; simp [Memory.read, *]
    · rw [Memory.read, ih h.2]; simp_all
    · rw [Memory.read, ih h.2]; simp_all [Memory.read]

/-- A memory is determined by what its bytes read as, when it is canonical. -/
theorem Memory.ext_read {m n : Memory} (hm : m.wf = true) (hn : n.wf = true)
    (h : ∀ a, m.read a = n.read a) : m = n := by
  induction m generalizing n with
  | nil =>
    cases n with
    | nil => rfl
    | cons cell rest =>
      obtain ⟨d, x⟩ := cell
      have := h d
      simp_all [Memory.read, Memory.wf]
  | cons cell rest ih =>
    obtain ⟨d, x⟩ := cell
    simp only [Memory.wf, Bool.and_eq_true, decide_eq_true_eq] at hm
    cases n with
    | nil =>
      have := h d
      simp_all [Memory.read]
    | cons cell' rest' =>
      obtain ⟨e, y⟩ := cell'
      simp only [Memory.wf, Bool.and_eq_true, decide_eq_true_eq] at hn
      have hd := h d
      have he := h e
      rcases Nat.lt_trichotomy d e with hlt | heq | hgt
      · simp only [Memory.read, if_true] at hd
        rw [if_neg (by omega), Memory.read_of_above hn.1.2 (by omega)] at hd
        exact absurd hd hm.1.1
      · subst heq
        simp only [Memory.read, if_true] at hd
        subst hd
        have : rest = rest' := by
          refine ih hm.2 hn.2 fun a => ?_
          by_cases hle : a ≤ d
          · rw [Memory.read_of_above hm.1.2 hle, Memory.read_of_above hn.1.2 hle]
          · have := h a
            simpa [Memory.read, show a ≠ d by omega] using this
        rw [this]
      · simp only [Memory.read, if_true] at he
        rw [if_neg (by omega), Memory.read_of_above hm.1.2 (by omega)] at he
        exact absurd he.symm hn.1.1

theorem Memory.all_write {m : Memory} {a : Nat} {v : Byte} {p : Nat → Bool}
    (h : m.all (fun cell => p cell.1) = true) (ha : p a = true) :
    (m.write a v).all (fun cell => p cell.1) = true := by
  induction m with
  | nil => unfold Memory.write; split_ifs <;> simp_all
  | cons cell rest ih =>
    obtain ⟨d, x⟩ := cell
    simp only [List.all_cons, Bool.and_eq_true] at h
    have hr := h.2
    unfold Memory.write
    split_ifs <;> simp only [List.all_cons, Bool.and_eq_true, h.1, ha, hr, ih hr, and_self]

/-- A write of a byte of the store keeps the store good. -/
theorem storeGood_write {c : Config} {m : Memory} {a : Nat} {v : Byte}
    (h : storeGood c m = true) (ha : isStoreAddr c a = true) : storeGood c (m.write a v) = true := by
  simp only [storeGood, Bool.and_eq_true] at h ⊢
  exact ⟨Memory.write_wf h.1, Memory.all_write h.2 ha⟩

theorem storeGood_wf {c : Config} {m : Memory} (h : storeGood c m = true) : m.wf = true := by
  simp only [storeGood, Bool.and_eq_true] at h; exact h.1

theorem storeGood_nil (c : Config) : storeGood c [] = true := rfl

/-- The reset memory has the canonical form. -/
theorem reset_fb_wf : Memory.wf State.reset.fb = true := rfl

end Sys2Proof.Machine
end

