-- ==== Sys2Proof/Laws/Store.lean ====
section
/-! SUPPORT. The store's addresses and pixels: which host byte offset holds which byte, which bit holds which pixel, and
what one byte store and one pixel write can do. -/

namespace Sys2Proof.Machine

/-- The constraints of R5, one by one. -/
theorem legal_iff {c : Config} :
    c.Legal ↔ c.fbW % 8 = 0 ∧ 8 ≤ c.fbW ∧ c.fbW ≤ 65528 ∧ 1 ≤ c.fbH ∧ c.fbH ≤ 65535 ∧ 1 ≤ c.nPlanes ∧
      c.nPlanes ≤ 8 ∧ c.fbBase % 4 = 0 ∧ 0x1000 ≤ c.fbBase ∧ c.planeStride % 4 = 0 ∧ c.bufBytes ≤ c.planeStride ∧
      1 ≤ c.batch ∧ c.apertureEnd ≤ 2 ^ 32 := by
  simp only [Config.Legal, Config.legal, Bool.and_eq_true, decide_eq_true_eq, and_assoc]

theorem legal_stride {c : Config} (h : c.Legal) : c.bufBytes ≤ c.planeStride := by
  have := legal_iff.1 h; omega

theorem legal_fbH_pos {c : Config} (h : c.Legal) : 0 < c.fbH := by
  have := legal_iff.1 h; omega

theorem legal_row {c : Config} (h : c.Legal) : c.fbW = 8 * c.rowBytes ∧ 0 < c.rowBytes := by
  have := legal_iff.1 h
  unfold Config.rowBytes
  omega

theorem legal_buf_pos {c : Config} (h : c.Legal) : 0 < c.bufBytes :=
  Nat.mul_pos (legal_row h).2 (legal_fbH_pos h)

theorem plane_end_le {c : Config} {k i : Nat} (hk : k < c.nPlanes) (hi : i ≤ c.planeStride) :
    k * c.planeStride + i ≤ c.nPlanes * c.planeStride := by
  calc k * c.planeStride + i ≤ k * c.planeStride + c.planeStride := by omega
    _ = (k + 1) * c.planeStride := by rw [Nat.add_mul, Nat.one_mul]
    _ ≤ c.nPlanes * c.planeStride := Nat.mul_le_mul_right _ hk

theorem plane_lt {c : Config} {k i : Nat} (hk : k < c.nPlanes) (hi : i < c.planeStride) :
    k * c.planeStride + i < c.nPlanes * c.planeStride := plane_end_le hk hi

theorem apertureOffset_storeAddr {c : Config} {k i : Nat} (hi : i < c.planeStride) :
    apertureOffset c (storeAddr c k i) = i := by
  unfold apertureOffset storeAddr
  rw [show c.fbBase + k * c.planeStride + i - c.fbBase = i + k * c.planeStride by omega,
    Nat.add_mul_mod_self_right, Nat.mod_eq_of_lt hi]

theorem aperturePlane_storeAddr {c : Config} {k i : Nat} (hi : i < c.planeStride) :
    aperturePlane c (storeAddr c k i) = k := by
  unfold aperturePlane storeAddr
  rw [show c.fbBase + k * c.planeStride + i - c.fbBase = i + k * c.planeStride by omega,
    Nat.add_mul_div_right _ _ (by omega), Nat.div_eq_of_lt hi, Nat.zero_add]

theorem inAperture_storeAddr {c : Config} {k i : Nat} (hk : k < c.nPlanes) (hi : i < c.planeStride) :
    inAperture c (storeAddr c k i) = true := by
  have := plane_lt hk hi
  simp only [inAperture, Bool.and_eq_true, decide_eq_true_eq]
  unfold storeAddr Config.apertureEnd
  omega

theorem storeAddr_lt {c : Config} (h : c.Legal) {k i : Nat} (hk : k < c.nPlanes) (hi : i < c.planeStride) :
    storeAddr c k i < 2 ^ 32 := by
  have h1 : c.apertureEnd ≤ 2 ^ 32 := by have := legal_iff.1 h; omega
  have := plane_lt hk hi
  unfold Config.apertureEnd at h1
  unfold storeAddr
  omega

theorem isStoreAddr_storeAddr {c : Config} (h : c.Legal) {k i : Nat} (hk : k < c.nPlanes) (hi : i < c.bufBytes) :
    isStoreAddr c (storeAddr c k i) = true := by
  have hs := Nat.lt_of_lt_of_le hi (legal_stride h)
  simp [isStoreAddr, inAperture_storeAddr hk hs, apertureOffset_storeAddr hs, hi]

/-- Every byte of the store is byte `off` of a plane `k`. -/
theorem storeAddr_of_isStoreAddr {c : Config} (h : c.Legal) {a : Nat} (ha : isStoreAddr c a = true) :
    aperturePlane c a < c.nPlanes ∧ apertureOffset c a < c.bufBytes ∧
      a = storeAddr c (aperturePlane c a) (apertureOffset c a) := by
  have hpos : 0 < c.planeStride := Nat.lt_of_lt_of_le (legal_buf_pos h) (legal_stride h)
  simp only [isStoreAddr, inAperture, Bool.and_eq_true, decide_eq_true_eq] at ha
  unfold Config.apertureEnd at ha
  refine ⟨?_, ha.2, ?_⟩
  · unfold aperturePlane
    rw [Nat.div_lt_iff_lt_mul hpos]
    omega
  · have := Nat.div_add_mod' (a - c.fbBase) c.planeStride
    unfold storeAddr aperturePlane apertureOffset
    omega

/-- Two bytes of the store share a host byte offset only when they are the same byte. -/
theorem storeAddr_inj {c : Config} {k k' i i' : Nat} (hi : i < c.planeStride) (hi' : i' < c.planeStride) :
    storeAddr c k i = storeAddr c k' i' ↔ k = k' ∧ i = i' := by
  refine ⟨fun h => ⟨?_, ?_⟩, fun h => by rw [h.1, h.2]⟩
  · rw [← aperturePlane_storeAddr (k := k) hi, h, aperturePlane_storeAddr hi']
  · rw [← apertureOffset_storeAddr (k := k) hi, h, apertureOffset_storeAddr hi']

/-- A read of any byte of the store after a byte store. -/
theorem fbRead_fbWrite {c : Config} {m : Memory} (hm : m.wf = true) {k k' i i' : Nat} (v : Byte)
    (hi : i < c.planeStride) (hi' : i' < c.planeStride) :
    fbRead c k' i' (fbWrite c k i v m) = if k' = k ∧ i' = i then v else fbRead c k' i' m := by
  unfold fbRead fbWrite
  rw [Memory.read_write hm]
  simp only [storeAddr_inj hi' hi]

theorem fbWrite_good {c : Config} (h : c.Legal) {m : Memory} (hm : storeGood c m = true) {k i : Nat} (v : Byte)
    (hk : k < c.nPlanes) (hi : i < c.bufBytes) : storeGood c (fbWrite c k i v m) = true :=
  storeGood_write hm (isStoreAddr_storeAddr h hk hi)

/-! ### Pixels -/

theorem byteIndex_lt {c : Config} (h : c.Legal) {px py : Nat} (hx : px < c.fbW) (hy : py < c.fbH) :
    byteIndex c px py < c.bufBytes := by
  have hr := legal_row h
  unfold byteIndex Config.bufBytes
  calc py * c.rowBytes + px / 8 < py * c.rowBytes + c.rowBytes := by omega
    _ = (py + 1) * c.rowBytes := by rw [Nat.add_mul, Nat.one_mul]
    _ ≤ c.fbH * c.rowBytes := Nat.mul_le_mul_right _ hy
    _ = c.rowBytes * c.fbH := Nat.mul_comm _ _

theorem bitPos_lt (c : Config) (px : Nat) : bitPos c px < 8 := by unfold bitPos; split <;> omega

theorem byteIndex_inj {c : Config} (h : c.Legal) {px py px' py' : Nat} (hx : px < c.fbW) (hx' : px' < c.fbW)
    (he : byteIndex c px py = byteIndex c px' py') : py = py' ∧ px / 8 = px' / 8 := by
  have hr := legal_row h
  unfold byteIndex at he
  have key : ∀ {y y' j j' : Nat}, j < c.rowBytes → j' < c.rowBytes → y * c.rowBytes + j = y' * c.rowBytes + j' →
      y ≤ y' := by
    intro y y' j j' hj hj' e
    by_contra hlt
    have : (y' + 1) * c.rowBytes ≤ y * c.rowBytes := Nat.mul_le_mul_right _ (by omega)
    rw [Nat.add_mul, Nat.one_mul] at this
    omega
  have h1 := key (by omega) (by omega) he
  have h2 := key (by omega) (by omega) he.symm
  have : py = py' := by omega
  subst this
  exact ⟨rfl, by omega⟩

theorem bitPos_inj {c : Config} {px px' : Nat} (he : bitPos c px = bitPos c px') : px % 8 = px' % 8 := by
  unfold bitPos at he
  split at he <;> omega

/-- Two pixels of a plane share a bit only when they are the same pixel. -/
theorem pixel_inj {c : Config} (h : c.Legal) {px py px' py' : Nat} (hx : px < c.fbW) (hx' : px' < c.fbW)
    (hi : byteIndex c px py = byteIndex c px' py') (hb : bitPos c px = bitPos c px') : px = px' ∧ py = py' := by
  have h1 := byteIndex_inj h hx hx' hi
  have h2 := bitPos_inj hb
  omega

/-- Every bit of a plane is a pixel's. -/
theorem pixel_surj {c : Config} (h : c.Legal) {i b : Nat} (hi : i < c.bufBytes) (hb : b < 8) :
    ∃ px py, px < c.fbW ∧ py < c.fbH ∧ byteIndex c px py = i ∧ bitPos c px = b := by
  have hr := legal_row h
  have hm := Nat.mod_lt i hr.2
  have hd : i / c.rowBytes < c.fbH := by
    rw [Nat.div_lt_iff_lt_mul hr.2, Nat.mul_comm]; exact hi
  have hdm := Nat.div_add_mod' i c.rowBytes
  cases ho : c.bitOrder with
  | msbFirst =>
    refine ⟨8 * (i % c.rowBytes) + (7 - b), i / c.rowBytes, by omega, hd, ?_, ?_⟩
    · unfold byteIndex
      rw [show (8 * (i % c.rowBytes) + (7 - b)) / 8 = i % c.rowBytes by omega]
      exact hdm
    · simp only [bitPos, ho]; omega
  | lsbFirst =>
    refine ⟨8 * (i % c.rowBytes) + b, i / c.rowBytes, by omega, hd, ?_, ?_⟩
    · unfold byteIndex
      rw [show (8 * (i % c.rowBytes) + b) / 8 = i % c.rowBytes by omega]
      exact hdm
    · simp only [bitPos, ho]; omega

/-- Bit j of R101's read-modify-write of a byte. -/
theorem getLsbD_setBit (x : Byte) (b : Bool) {p j : Nat} (hp : p < 8) (hj : j < 8) :
    ((x &&& ~~~(1#8 <<< p)) ||| (if b then 1#8 <<< p else 0)).getLsbD j = if j = p then b else x.getLsbD j := by
  have h1 : (1#8 <<< p).getLsbD j = decide (j = p) := by
    rw [BitVec.getLsbD_shiftLeft]
    by_cases h : j = p
    · subst h; simp [hj]
    · by_cases hlt : j < p
      · simp [hj, hlt, h]
      · simp [hj, hlt, h, BitVec.getLsbD_one]
        omega
  rw [BitVec.getLsbD_or, BitVec.getLsbD_and, BitVec.getLsbD_not, h1]
  by_cases h : j = p
  · subst h; cases b <;> simp [hj]
  · cases b
    · simp [h, hj]
    · simp only [if_true, h1, h, decide_false, Bool.not_false, hj, decide_true, Bool.and_true,
        Bool.or_false, if_false]

/-- Two good stores of one configuration with the same pixels are equal. -/
theorem store_ext_pixels {c : Config} (h : c.Legal) {m n : Memory} (hm : storeGood c m = true)
    (hn : storeGood c n = true)
    (hp : ∀ k px py, InStore c k px py → pixelBit c m k px py = pixelBit c n k px py) : m = n := by
  have unlisted : ∀ {l : Memory}, storeGood c l = true → ∀ a, isStoreAddr c a = false → l.read a = Memory.unlisted := by
    intro l hl a ha
    simp only [storeGood, Bool.and_eq_true] at hl
    replace hl := hl.2
    induction l with
    | nil => rfl
    | cons cell rest ih =>
      simp only [List.all_cons, Bool.and_eq_true] at hl
      have : a ≠ cell.1 := by rintro rfl; simp_all
      rw [show cell :: rest = (cell.1, cell.2) :: rest from rfl, Memory.read, if_neg this, ih hl.2]
  refine Memory.ext_read (storeGood_wf hm) (storeGood_wf hn) fun a => ?_
  by_cases ha : isStoreAddr c a = true
  · obtain ⟨hk, hi, hs⟩ := storeAddr_of_isStoreAddr h ha
    refine BitVec.eq_of_getLsbD_eq fun j hj => ?_
    obtain ⟨px, py, hx, hy, hbi, hbp⟩ := pixel_surj h hi hj
    have := hp _ px py ⟨hk, hx, hy⟩
    unfold pixelBit fbRead at this
    rw [hbi, hbp, ← hs] at this
    exact this
  · rw [unlisted hm a (by simpa using ha), unlisted hn a (by simpa using ha)]

end Sys2Proof.Machine
end

