-- ==== Sys2Proof/Laws/Decode.lean ====
section
/-! SUPPORT. The decoder's tables and the encoder's agree, field by field and table by table. -/

namespace Sys2Proof

theorem opcodeOf_opcodeByte (op : Opcode) : opcodeOf (opcodeByte op) = some op := by cases op <;> rfl

theorem opcodeByte_of_opcodeOf {b : Byte} {op : Opcode} (h : opcodeOf b = some op) : b = opcodeByte op := by
  unfold opcodeOf at h
  split_ifs at h <;> (injection h with h; subst h; assumption)

/-- An OP value is illegal exactly when it is 0 or above 5 (R84). -/
theorem opcodeOf_eq_none {b : Byte} : opcodeOf b = none ↔ b.toNat = 0 ∨ 6 ≤ b.toNat := by
  revert b; decide

theorem append_toNat {m n : Nat} (x : BitVec m) (y : BitVec n) : (x ++ y).toNat = x.toNat * 2 ^ n + y.toNat := by
  rw [BitVec.toNat_append, ← Nat.shiftLeft_add_eq_or_of_lt y.isLt, Nat.shiftLeft_eq]

/-- A command word as a number: RSV, COLOR and OP in bits 31:16, 15:8 and 7:0 (R81). -/
theorem commandWord_toNat (rsv : BitVec 16) (color : Byte) (op : Opcode) :
    (commandWord rsv color op).toNat = rsv.toNat * 65536 + color.toNat * 256 + (opcodeByte op).toNat := by
  have h1 := append_toNat (rsv ++ color) (opcodeByte op)
  have h2 := append_toNat rsv color
  exact h1.trans (by rw [h2]; omega)

theorem opField_toNat (w : Word) : (opField w).toNat = w.toNat % 256 := by simp [opField]

theorem colorField_toNat (w : Word) : (colorField w).toNat = w.toNat / 256 % 256 := by
  simp [colorField, Nat.shiftRight_eq_div_pow]

theorem rsvField_toNat (w : Word) : (rsvField w).toNat = w.toNat / 65536 := by
  have := w.isLt
  simp only [rsvField, BitVec.extractLsb'_toNat, Nat.shiftRight_eq_div_pow]
  omega

theorem opField_commandWord (rsv : BitVec 16) (color : Byte) (op : Opcode) :
    opField (commandWord rsv color op) = opcodeByte op := by
  have := (opcodeByte op).isLt
  apply BitVec.eq_of_toNat_eq
  rw [opField_toNat, commandWord_toNat]
  omega

theorem colorField_commandWord (rsv : BitVec 16) (color : Byte) (op : Opcode) :
    colorField (commandWord rsv color op) = color := by
  have := (opcodeByte op).isLt
  have := color.isLt
  apply BitVec.eq_of_toNat_eq
  rw [colorField_toNat, commandWord_toNat]
  omega

theorem rsvField_commandWord (rsv : BitVec 16) (color : Byte) (op : Opcode) :
    rsvField (commandWord rsv color op) = rsv := by
  have := (opcodeByte op).isLt
  have := color.isLt
  apply BitVec.eq_of_toNat_eq
  rw [rsvField_toNat, commandWord_toNat]
  omega

theorem commandWord_fields {w : Word} {op : Opcode} (h : opField w = opcodeByte op) :
    commandWord (rsvField w) (colorField w) op = w := by
  apply BitVec.eq_of_toNat_eq
  rw [commandWord_toNat, ← h, opField_toNat, colorField_toNat, rsvField_toNat]
  omega

/-- What a command word decodes to, by its opcode. -/
theorem decodeCommand_commandWord (rsv : BitVec 16) (color : Byte) (op : Opcode) :
    decodeCommand (commandWord rsv color op) =
      match op with
      | .setPixel => .setPixel rsv color
      | .fillRect => .fillRect rsv color
      | .seqBegin => .seqBegin rsv color
      | .seqPush => .seqPush rsv color
      | .seqEnd => .seqEnd rsv color := by
  unfold decodeCommand
  rw [opField_commandWord, opcodeOf_opcodeByte, colorField_commandWord, rsvField_commandWord]
  cases op <;> rfl

theorem regAt_regOffset (r : Reg) : regAt (regOffset r) = some r := by cases r <;> rfl

theorem regOffset_of_regAt {a : Nat} {r : Reg} (h : regAt a = some r) : a = regOffset r := by
  unfold regAt at h
  split at h <;> first | (injection h with h; subst h; rfl) | cases h

theorem regOffset_lt (r : Reg) : regOffset r ≤ 0x40 ∧ regOffset r % 4 = 0 := by cases r <;> decide

theorem regAddr_toNat (r : Reg) : (regAddr r).toNat = regOffset r := by cases r <;> rfl

/-- A register-block offset is mapped exactly when it is a multiple of 4 up to 0x40 (R22). -/
theorem regAt_eq_none {a : Nat} (h4 : a % 4 = 0) : regAt a = none ↔ 0x40 < a := by
  constructor
  · intro h
    by_contra hle
    obtain ⟨j, rfl⟩ : ∃ j, a = 4 * j := ⟨a / 4, by omega⟩
    have hj : j < 17 := by omega
    interval_cases j <;> simp [regAt] at h
  · intro h
    cases hr : regAt a with
    | none => rfl
    | some r =>
      have h1 := regOffset_of_regAt hr
      have h2 := regOffset_lt r
      omega

/-- A word access at a mapped register (R57, R87): a read is REG_READ, a write REG_WRITE, and a write of CMD a command. -/
theorem decode_register (c : Config) (r : Reg) (k : Kind) (d : Word) :
    decode c { kind := k, addr := regAddr r, width := .word, data := d } =
      match k with
      | .read => .instr (.regRead r)
      | .write => if r = .cmd then .instr (decodeCommand d) else .instr (.regWrite r d) := by
  have h := regOffset_lt r
  have h1 : (regAddr r).toNat < 0x1000 := by rw [regAddr_toNat]; omega
  have h2 : (regAddr r).toNat % 4 = 0 := by rw [regAddr_toNat]; omega
  have h3 : regAt (regAddr r).toNat = some r := by rw [regAddr_toNat, regAt_regOffset]
  cases k <;> simp [decode, decodeRegister, h1, h2, h3]

/-- A word written to CMD is decoded as a command under every configuration (R26, R87). -/
theorem decode_commandWrite (c : Config) (w : Word) : decode c (commandWrite w) = .instr (decodeCommand w) := by
  simp [decode, decodeRegister, commandWrite, regAddr, regOffset, regAt]

/-- Everything a transaction that decodes to an instruction can be (R57, R59, R61, R87). -/
theorem decode_instr_cases {c : Config} {t : Transaction} {i : Instr} (h : decode c t = .instr i) :
    (Machine.IsWordWrite t 0x18 ∧ i = decodeCommand t.data) ∨
    (∃ r, r ≠ .cmd ∧ Machine.IsWordWrite t (regOffset r) ∧ i = .regWrite r t.data) ∨
    (∃ r, t.kind = .read ∧ t.width = .word ∧ t.addr.toNat = regOffset r ∧ i = .regRead r) ∨
    (¬t.addr.toNat < 0x1000 ∧ t.kind = .read ∧ t.width = .byte ∧ inAperture c t.addr.toNat = true ∧
      apertureOffset c t.addr.toNat + 1 ≤ c.bufBytes ∧ i = .fbReadByte t.addr) ∨
    (¬t.addr.toNat < 0x1000 ∧ t.kind = .read ∧ t.width = .word ∧ t.addr.toNat % 4 = 0 ∧
      inAperture c t.addr.toNat = true ∧ apertureOffset c t.addr.toNat + 4 ≤ c.bufBytes ∧ i = .fbReadWord t.addr) ∨
    (¬t.addr.toNat < 0x1000 ∧ t.kind = .write ∧ inAperture c t.addr.toNat = true ∧
      i = .fbWrite t.addr t.width t.data) := by
  unfold decode at h
  split_ifs at h with h1 h2
  · unfold decodeRegister at h
    split_ifs at h with h3 h4
    have h3 : t.width = .word := by simpa using h3
    split at h
    · cases h
    · rename_i r hr
      have hr := regOffset_of_regAt hr
      split at h
      · rename_i hk
        injection h with h
        exact .inr (.inr (.inl ⟨r, hk, h3, hr, h.symm⟩))
      · rename_i hk
        split_ifs at h with h5
        · injection h with h
          subst h5
          exact .inl ⟨⟨hk, h3, hr⟩, h.symm⟩
        · injection h with h
          exact .inr (.inl ⟨r, h5, ⟨hk, h3, hr⟩, h.symm⟩)
  · unfold decodeAperture at h
    split at h
    · rename_i hk hw
      injection h with h
      exact .inr (.inr (.inr (.inr (.inr ⟨h1, by assumption, h2, h.symm⟩))))
    · cases h
    · split_ifs at h with h3
      injection h with h
      exact .inr (.inr (.inr (.inl ⟨h1, by assumption, by assumption, h2, h3, h.symm⟩)))
    · split_ifs at h with h3 h4
      injection h with h
      exact .inr (.inr (.inr (.inr (.inl ⟨h1, by assumption, by assumption, by omega, h2, h4, h.symm⟩))))

theorem eq_regAddr {a : Word} {r : Reg} (h : a.toNat = regOffset r) : a = regAddr r :=
  BitVec.eq_of_toNat_eq (by rw [h, regAddr_toNat])

/-- A word write to offset 0x18 is the CMD write of its data, and decodes to that command (R26, R87). -/
theorem decode_of_isWordWrite_cmd {c : Config} {t : Transaction} (h : Machine.IsWordWrite t 0x18) :
    decode c t = .instr (decodeCommand t.data) := by
  obtain ⟨hk, hw, ha⟩ := h
  have e : t = commandWrite t.data := by
    obtain ⟨k, a, n, d⟩ := t
    simp only at hk hw ha
    subst hk hw
    rw [show a = regAddr .cmd from eq_regAddr ha]
    rfl
  rw [e]
  exact decode_commandWrite c _

end Sys2Proof
end

