-- ==== Sys2Proof/Laws/State.lean ====
section
/-! SUPPORT. One lemma per field per update of `State`, each true by rfl and tagged simp, so that no later proof unfolds a
record update. -/

namespace Sys2Proof.Machine

/-! ### okayWrite -/

@[simp] theorem okayWrite_cfg (s : State) : (okayWrite s).cfg = s.cfg := rfl
@[simp] theorem okayWrite_rot (s : State) : (okayWrite s).rot = s.rot := rfl
@[simp] theorem okayWrite_errBits (s : State) : (okayWrite s).errBits = s.errBits := rfl
@[simp] theorem okayWrite_posX (s : State) : (okayWrite s).posX = s.posX := rfl
@[simp] theorem okayWrite_posY (s : State) : (okayWrite s).posY = s.posY := rfl
@[simp] theorem okayWrite_extW (s : State) : (okayWrite s).extW = s.extW := rfl
@[simp] theorem okayWrite_extH (s : State) : (okayWrite s).extH = s.extH := rfl
@[simp] theorem okayWrite_errInfo (s : State) : (okayWrite s).errInfo = s.errInfo := rfl
@[simp] theorem okayWrite_seq (s : State) : (okayWrite s).seq = s.seq := rfl
@[simp] theorem okayWrite_fb (s : State) : (okayWrite s).fb = s.fb := rfl
@[simp] theorem okayWrite_pending (s : State) : (okayWrite s).pending = s.pending := rfl
@[simp] theorem okayWrite_response (s : State) : (okayWrite s).response = some ⟨.okay, none⟩ := rfl

/-! ### okayRead -/

@[simp] theorem okayRead_cfg (v : Word) (s : State) : (okayRead v s).cfg = s.cfg := rfl
@[simp] theorem okayRead_rot (v : Word) (s : State) : (okayRead v s).rot = s.rot := rfl
@[simp] theorem okayRead_errBits (v : Word) (s : State) : (okayRead v s).errBits = s.errBits := rfl
@[simp] theorem okayRead_posX (v : Word) (s : State) : (okayRead v s).posX = s.posX := rfl
@[simp] theorem okayRead_posY (v : Word) (s : State) : (okayRead v s).posY = s.posY := rfl
@[simp] theorem okayRead_extW (v : Word) (s : State) : (okayRead v s).extW = s.extW := rfl
@[simp] theorem okayRead_extH (v : Word) (s : State) : (okayRead v s).extH = s.extH := rfl
@[simp] theorem okayRead_errInfo (v : Word) (s : State) : (okayRead v s).errInfo = s.errInfo := rfl
@[simp] theorem okayRead_seq (v : Word) (s : State) : (okayRead v s).seq = s.seq := rfl
@[simp] theorem okayRead_fb (v : Word) (s : State) : (okayRead v s).fb = s.fb := rfl
@[simp] theorem okayRead_pending (v : Word) (s : State) : (okayRead v s).pending = s.pending := rfl
@[simp] theorem okayRead_response (v : Word) (s : State) : (okayRead v s).response = some ⟨.okay, some v⟩ := rfl

/-! ### raiseCmdError -/

@[simp] theorem raiseCmdError_cfg (e : ErrorBit) (w : Word) (s : State) : (raiseCmdError e w s).cfg = s.cfg := rfl
@[simp] theorem raiseCmdError_rot (e : ErrorBit) (w : Word) (s : State) : (raiseCmdError e w s).rot = s.rot := rfl
@[simp] theorem raiseCmdError_errBits (e : ErrorBit) (w : Word) (s : State) : (raiseCmdError e w s).errBits = setErrorBit e s.errBits := rfl
@[simp] theorem raiseCmdError_posX (e : ErrorBit) (w : Word) (s : State) : (raiseCmdError e w s).posX = s.posX := rfl
@[simp] theorem raiseCmdError_posY (e : ErrorBit) (w : Word) (s : State) : (raiseCmdError e w s).posY = s.posY := rfl
@[simp] theorem raiseCmdError_extW (e : ErrorBit) (w : Word) (s : State) : (raiseCmdError e w s).extW = s.extW := rfl
@[simp] theorem raiseCmdError_extH (e : ErrorBit) (w : Word) (s : State) : (raiseCmdError e w s).extH = s.extH := rfl
@[simp] theorem raiseCmdError_errInfo (e : ErrorBit) (w : Word) (s : State) : (raiseCmdError e w s).errInfo = w := rfl
@[simp] theorem raiseCmdError_seq (e : ErrorBit) (w : Word) (s : State) : (raiseCmdError e w s).seq = s.seq := rfl
@[simp] theorem raiseCmdError_fb (e : ErrorBit) (w : Word) (s : State) : (raiseCmdError e w s).fb = s.fb := rfl
@[simp] theorem raiseCmdError_pending (e : ErrorBit) (w : Word) (s : State) : (raiseCmdError e w s).pending = s.pending := rfl
@[simp] theorem raiseCmdError_response (e : ErrorBit) (w : Word) (s : State) : (raiseCmdError e w s).response = some ⟨.okay, none⟩ := rfl

/-! ### raiseBusError -/

@[simp] theorem raiseBusError_cfg (k : Kind) (a : Word) (s : State) : (raiseBusError k a s).cfg = s.cfg := rfl
@[simp] theorem raiseBusError_rot (k : Kind) (a : Word) (s : State) : (raiseBusError k a s).rot = s.rot := rfl
@[simp] theorem raiseBusError_errBits (k : Kind) (a : Word) (s : State) : (raiseBusError k a s).errBits = setErrorBit .access s.errBits := rfl
@[simp] theorem raiseBusError_posX (k : Kind) (a : Word) (s : State) : (raiseBusError k a s).posX = s.posX := rfl
@[simp] theorem raiseBusError_posY (k : Kind) (a : Word) (s : State) : (raiseBusError k a s).posY = s.posY := rfl
@[simp] theorem raiseBusError_extW (k : Kind) (a : Word) (s : State) : (raiseBusError k a s).extW = s.extW := rfl
@[simp] theorem raiseBusError_extH (k : Kind) (a : Word) (s : State) : (raiseBusError k a s).extH = s.extH := rfl
@[simp] theorem raiseBusError_errInfo (k : Kind) (a : Word) (s : State) : (raiseBusError k a s).errInfo = a := rfl
@[simp] theorem raiseBusError_seq (k : Kind) (a : Word) (s : State) : (raiseBusError k a s).seq = s.seq := rfl
@[simp] theorem raiseBusError_fb (k : Kind) (a : Word) (s : State) : (raiseBusError k a s).fb = s.fb := rfl
@[simp] theorem raiseBusError_pending (k : Kind) (a : Word) (s : State) : (raiseBusError k a s).pending = s.pending := rfl
@[simp] theorem raiseBusError_response (k : Kind) (a : Word) (s : State) : (raiseBusError k a s).response = some (errorResponse k) := rfl

/-! ### setPixelEffect -/

@[simp] theorem setPixelEffect_cfg (color : Byte) (s : State) : (setPixelEffect color s).cfg = s.cfg := rfl
@[simp] theorem setPixelEffect_rot (color : Byte) (s : State) : (setPixelEffect color s).rot = s.rot := rfl
@[simp] theorem setPixelEffect_errBits (color : Byte) (s : State) : (setPixelEffect color s).errBits = s.errBits := rfl
@[simp] theorem setPixelEffect_posX (color : Byte) (s : State) : (setPixelEffect color s).posX = s.posX := rfl
@[simp] theorem setPixelEffect_posY (color : Byte) (s : State) : (setPixelEffect color s).posY = s.posY := rfl
@[simp] theorem setPixelEffect_extW (color : Byte) (s : State) : (setPixelEffect color s).extW = s.extW := rfl
@[simp] theorem setPixelEffect_extH (color : Byte) (s : State) : (setPixelEffect color s).extH = s.extH := rfl
@[simp] theorem setPixelEffect_errInfo (color : Byte) (s : State) : (setPixelEffect color s).errInfo = s.errInfo := rfl
@[simp] theorem setPixelEffect_seq (color : Byte) (s : State) : (setPixelEffect color s).seq = s.seq := rfl
@[simp] theorem setPixelEffect_fb (color : Byte) (s : State) : (setPixelEffect color s).fb = logicalPlot s.cfg s.rot (sint s.posX) (sint s.posY) color s.fb := rfl
@[simp] theorem setPixelEffect_pending (color : Byte) (s : State) : (setPixelEffect color s).pending = s.pending := rfl
@[simp] theorem setPixelEffect_response (color : Byte) (s : State) : (setPixelEffect color s).response = s.response := rfl

/-! ### fillRectEffect -/

@[simp] theorem fillRectEffect_cfg (color : Byte) (s : State) : (fillRectEffect color s).cfg = s.cfg := rfl
@[simp] theorem fillRectEffect_rot (color : Byte) (s : State) : (fillRectEffect color s).rot = s.rot := rfl
@[simp] theorem fillRectEffect_errBits (color : Byte) (s : State) : (fillRectEffect color s).errBits = s.errBits := rfl
@[simp] theorem fillRectEffect_posX (color : Byte) (s : State) : (fillRectEffect color s).posX = s.posX := rfl
@[simp] theorem fillRectEffect_posY (color : Byte) (s : State) : (fillRectEffect color s).posY = s.posY := rfl
@[simp] theorem fillRectEffect_extW (color : Byte) (s : State) : (fillRectEffect color s).extW = s.extW := rfl
@[simp] theorem fillRectEffect_extH (color : Byte) (s : State) : (fillRectEffect color s).extH = s.extH := rfl
@[simp] theorem fillRectEffect_errInfo (color : Byte) (s : State) : (fillRectEffect color s).errInfo = s.errInfo := rfl
@[simp] theorem fillRectEffect_seq (color : Byte) (s : State) : (fillRectEffect color s).seq = s.seq := rfl
@[simp] theorem fillRectEffect_fb (color : Byte) (s : State) : (fillRectEffect color s).fb = fillArea s.cfg s.rot (areaOperand s) color s.fb := rfl
@[simp] theorem fillRectEffect_pending (color : Byte) (s : State) : (fillRectEffect color s).pending = s.pending := rfl
@[simp] theorem fillRectEffect_response (color : Byte) (s : State) : (fillRectEffect color s).response = s.response := rfl

/-! ### seqEndEffect -/

@[simp] theorem seqEndEffect_cfg (s : State) : (seqEndEffect s).cfg = s.cfg := rfl
@[simp] theorem seqEndEffect_rot (s : State) : (seqEndEffect s).rot = s.rot := rfl
@[simp] theorem seqEndEffect_errBits (s : State) : (seqEndEffect s).errBits = s.errBits := rfl
@[simp] theorem seqEndEffect_posX (s : State) : (seqEndEffect s).posX = s.posX := rfl
@[simp] theorem seqEndEffect_posY (s : State) : (seqEndEffect s).posY = s.posY := rfl
@[simp] theorem seqEndEffect_extW (s : State) : (seqEndEffect s).extW = s.extW := rfl
@[simp] theorem seqEndEffect_extH (s : State) : (seqEndEffect s).extH = s.extH := rfl
@[simp] theorem seqEndEffect_errInfo (s : State) : (seqEndEffect s).errInfo = s.errInfo := rfl
@[simp] theorem seqEndEffect_seq (s : State) : (seqEndEffect s).seq = none := rfl
@[simp] theorem seqEndEffect_fb (s : State) : (seqEndEffect s).fb = s.fb := rfl
@[simp] theorem seqEndEffect_pending (s : State) : (seqEndEffect s).pending = s.pending := rfl
@[simp] theorem seqEndEffect_response (s : State) : (seqEndEffect s).response = s.response := rfl

/-! ### hostReset -/

@[simp] theorem hostReset_cfg (s : State) : (hostReset s).cfg = s.cfg := rfl
@[simp] theorem hostReset_rot (s : State) : (hostReset s).rot = .none := rfl
@[simp] theorem hostReset_errBits (s : State) : (hostReset s).errBits = 0 := rfl
@[simp] theorem hostReset_posX (s : State) : (hostReset s).posX = 0 := rfl
@[simp] theorem hostReset_posY (s : State) : (hostReset s).posY = 0 := rfl
@[simp] theorem hostReset_extW (s : State) : (hostReset s).extW = 0 := rfl
@[simp] theorem hostReset_extH (s : State) : (hostReset s).extH = 0 := rfl
@[simp] theorem hostReset_errInfo (s : State) : (hostReset s).errInfo = 0 := rfl
@[simp] theorem hostReset_seq (s : State) : (hostReset s).seq = none := rfl
@[simp] theorem hostReset_fb (s : State) : (hostReset s).fb = [] := rfl
@[simp] theorem hostReset_pending (s : State) : (hostReset s).pending = s.pending := rfl
@[simp] theorem hostReset_response (s : State) : (hostReset s).response = none := rfl

/-! ### resetWith -/

@[simp] theorem resetWith_cfg (c : Config) : (State.resetWith c).cfg = c := rfl
@[simp] theorem resetWith_rot (c : Config) : (State.resetWith c).rot = .none := rfl
@[simp] theorem resetWith_errBits (c : Config) : (State.resetWith c).errBits = 0 := rfl
@[simp] theorem resetWith_posX (c : Config) : (State.resetWith c).posX = 0 := rfl
@[simp] theorem resetWith_posY (c : Config) : (State.resetWith c).posY = 0 := rfl
@[simp] theorem resetWith_extW (c : Config) : (State.resetWith c).extW = 0 := rfl
@[simp] theorem resetWith_extH (c : Config) : (State.resetWith c).extH = 0 := rfl
@[simp] theorem resetWith_errInfo (c : Config) : (State.resetWith c).errInfo = 0 := rfl
@[simp] theorem resetWith_seq (c : Config) : (State.resetWith c).seq = none := rfl
@[simp] theorem resetWith_fb (c : Config) : (State.resetWith c).fb = [] := rfl
@[simp] theorem resetWith_pending (c : Config) : (State.resetWith c).pending = [] := rfl
@[simp] theorem resetWith_response (c : Config) : (State.resetWith c).response = none := rfl

/-! ### seqBeginEffect and seqPushEffect: the fields they leave -/

@[simp] theorem seqBeginEffect_cfg (s : State) : (seqBeginEffect s).cfg = s.cfg := by
  unfold seqBeginEffect; split <;> rfl
@[simp] theorem seqBeginEffect_rot (s : State) : (seqBeginEffect s).rot = s.rot := by
  unfold seqBeginEffect; split <;> rfl
@[simp] theorem seqBeginEffect_errBits (s : State) : (seqBeginEffect s).errBits = s.errBits := by
  unfold seqBeginEffect; split <;> rfl
@[simp] theorem seqBeginEffect_posX (s : State) : (seqBeginEffect s).posX = s.posX := by
  unfold seqBeginEffect; split <;> rfl
@[simp] theorem seqBeginEffect_posY (s : State) : (seqBeginEffect s).posY = s.posY := by
  unfold seqBeginEffect; split <;> rfl
@[simp] theorem seqBeginEffect_extW (s : State) : (seqBeginEffect s).extW = s.extW := by
  unfold seqBeginEffect; split <;> rfl
@[simp] theorem seqBeginEffect_extH (s : State) : (seqBeginEffect s).extH = s.extH := by
  unfold seqBeginEffect; split <;> rfl
@[simp] theorem seqBeginEffect_errInfo (s : State) : (seqBeginEffect s).errInfo = s.errInfo := by
  unfold seqBeginEffect; split <;> rfl
@[simp] theorem seqBeginEffect_fb (s : State) : (seqBeginEffect s).fb = s.fb := by
  unfold seqBeginEffect; split <;> rfl
@[simp] theorem seqBeginEffect_pending (s : State) : (seqBeginEffect s).pending = s.pending := by
  unfold seqBeginEffect; split <;> rfl
@[simp] theorem seqBeginEffect_response (s : State) : (seqBeginEffect s).response = s.response := by
  unfold seqBeginEffect; split <;> rfl
@[simp] theorem seqPushEffect_cfg (color : Byte) (s : State) : (seqPushEffect color s).cfg = s.cfg := by
  unfold seqPushEffect; split <;> rfl
@[simp] theorem seqPushEffect_rot (color : Byte) (s : State) : (seqPushEffect color s).rot = s.rot := by
  unfold seqPushEffect; split <;> rfl
@[simp] theorem seqPushEffect_errBits (color : Byte) (s : State) : (seqPushEffect color s).errBits = s.errBits := by
  unfold seqPushEffect; split <;> rfl
@[simp] theorem seqPushEffect_posX (color : Byte) (s : State) : (seqPushEffect color s).posX = s.posX := by
  unfold seqPushEffect; split <;> rfl
@[simp] theorem seqPushEffect_posY (color : Byte) (s : State) : (seqPushEffect color s).posY = s.posY := by
  unfold seqPushEffect; split <;> rfl
@[simp] theorem seqPushEffect_extW (color : Byte) (s : State) : (seqPushEffect color s).extW = s.extW := by
  unfold seqPushEffect; split <;> rfl
@[simp] theorem seqPushEffect_extH (color : Byte) (s : State) : (seqPushEffect color s).extH = s.extH := by
  unfold seqPushEffect; split <;> rfl
@[simp] theorem seqPushEffect_errInfo (color : Byte) (s : State) : (seqPushEffect color s).errInfo = s.errInfo := by
  unfold seqPushEffect; split <;> rfl
@[simp] theorem seqPushEffect_pending (color : Byte) (s : State) : (seqPushEffect color s).pending = s.pending := by
  unfold seqPushEffect; split <;> rfl
@[simp] theorem seqPushEffect_response (color : Byte) (s : State) : (seqPushEffect color s).response = s.response := by
  unfold seqPushEffect; split <;> rfl

end Sys2Proof.Machine
end

