-- ==== Sys2Proof/Laws/Flags.lean ====
section
/-! SUPPORT. The bits of STATUS: what reading, setting and clearing them gives (10_state.md R27). -/

namespace Sys2Proof.Machine

theorem statusWord_append_bit : ∀ (e : BitVec 5) (b : BitVec 1) (n : Fin 32),
    (0#19 ++ e ++ 0#7 ++ b).getLsbD n =
      if n.val = 0 then b.getLsbD 0 else decide (8 ≤ n.val ∧ n.val ≤ 12) && e.getLsbD (n.val - 8) := by decide

/-- Every bit of STATUS (R27). -/
theorem statusBit_eq (s : State) {n : Nat} (hn : n < 32) :
    statusBit s n =
      if n = 0 then decide (s.seq ≠ none) else decide (8 ≤ n ∧ n ≤ 12) && s.errBits.getLsbD (n - 8) := by
  refine (statusWord_append_bit s.errBits (seqOpenBit s.seq) ⟨n, hn⟩).trans ?_
  cases s.seq <;> simp [seqOpenBit]

/-- The error bits of STATUS are `State.errBits` (R27). -/
theorem statusBit_error (s : State) {n : Nat} (h8 : 8 ≤ n) (h12 : n ≤ 12) :
    statusBit s n = s.errBits.getLsbD (n - 8) := by
  rw [statusBit_eq s (by omega), if_neg (by omega)]
  simp [h8, h12]

/-- Setting one error bit sets it and leaves the others (R163). -/
theorem setErrorBit_bit (c : ErrorBit) (e : BitVec 5) {j : Nat} (hj : j < 5) :
    (setErrorBit c e).getLsbD j = (decide (j + 8 = errorCode c) || e.getLsbD j) := by
  cases c <;> (revert e; interval_cases j <;> decide)

/-- A STATUS write clears the bits written as 1 (R27). -/
theorem clearErrorBits_bit (v : Word) (e : BitVec 5) {j : Nat} (hj : j < 5) :
    (clearErrorBits v e).getLsbD j = (e.getLsbD j && !v.getLsbD (8 + j)) := by
  simp [clearErrorBits, hj]

theorem errorCode_range (c : ErrorBit) : 8 ≤ errorCode c ∧ errorCode c ≤ 12 := by cases c <;> decide

theorem errorCode_access {c : ErrorBit} : errorCode c = 12 ↔ c = .access := by cases c <;> decide

end Sys2Proof.Machine
end

