-- ==== Sys2Proof/Laws/Outcome.lean ====
section
/-! SUPPORT. What the shared operations of the machine can answer, said once: `perform`, `runCommand`, `takeAction`,
`step`. -/

namespace Sys2Proof.Machine

theorem perform_legal {s : State} (h : s.cfg.Legal) (t : State) : perform s t = .next t := if_pos h

theorem perform_illegal {s : State} (h : ¬s.cfg.Legal) (t : State) : perform s t = .refused .illegalConfiguration :=
  if_neg h

/-- `perform` answers a next state exactly on a legal configuration, and then the one it was given. -/
theorem perform_next_iff {s t u : State} : perform s t = .next u ↔ s.cfg.Legal ∧ t = u := by
  by_cases h : s.cfg.Legal
  · rw [perform_legal h]; exact ⟨fun e => ⟨h, by injection e⟩, fun e => by rw [e.2]⟩
  · simp [perform_illegal h, h]

/-- The state a command leaves on a legal configuration: R164's checks, then the effect. -/
theorem runCommand_legal {s : State} (h : s.cfg.Legal) (w : Word) (reserved : Bool) (e : Option ErrorBit)
    (effect : State) :
    runCommand s w reserved e effect =
      .next (if reserved then raiseCmdError .reserved w s
        else match e with
          | some e => raiseCmdError e w s
          | none => okayWrite effect) := perform_legal h _

theorem runCommand_illegal {s : State} (h : ¬s.cfg.Legal) (w : Word) (reserved : Bool) (e : Option ErrorBit)
    (effect : State) : runCommand s w reserved e effect = .refused .illegalConfiguration := perform_illegal h _

/-- Everything a command with a legal OP can do: be discarded with one error, or have its effect and be acknowledged. -/
theorem runCommand_cases {s u : State} {w : Word} {reserved : Bool} {e : Option ErrorBit} {effect : State}
    (h : runCommand s w reserved e effect = .next u) :
    s.cfg.Legal ∧
      ((reserved = true ∧ u = raiseCmdError .reserved w s) ∨
       (reserved = false ∧ ∃ code, e = some code ∧ u = raiseCmdError code w s) ∨
       (reserved = false ∧ e = none ∧ u = okayWrite effect)) := by
  obtain ⟨hl, h⟩ := perform_next_iff.1 h
  refine ⟨hl, ?_⟩
  cases reserved with
  | true => exact .inl ⟨rfl, h.symm⟩
  | false =>
    cases e with
    | some code => exact .inr (.inl ⟨rfl, code, rfl, h.symm⟩)
    | none => exact .inr (.inr ⟨rfl, rfl, h.symm⟩)

@[simp] theorem requireNoSeq_eq_none {s : State} : requireNoSeq s = none ↔ s.seq = none := by
  unfold requireNoSeq; split <;> simp_all

@[simp] theorem requireSeq_eq_none {s : State} : requireSeq s = none ↔ s.seq ≠ none := by
  unfold requireSeq; split <;> simp_all

theorem requireNoSeq_some {s : State} {e : ErrorBit} (h : requireNoSeq s = some e) : e = .seqOpen ∧ s.seq ≠ none := by
  unfold requireNoSeq at h
  split at h
  · cases h
  · injection h with h; simp_all

theorem requireSeq_some {s : State} {e : ErrorBit} (h : requireSeq s = some e) : e = .noSeq ∧ s.seq = none := by
  unfold requireSeq at h
  split at h
  · injection h with h; simp_all
  · cases h

/-- Everything a write of CMD can do (R26, R164), by its opcode. -/
theorem performCommand_eq_exec (w : Word) (s : State) : performCommand w s = exec (decodeCommand w) s := by
  unfold performCommand decodeCommand
  cases opcodeOf (opField w) with
  | none => rfl
  | some op => cases op <;> rfl

/-- Everything a step can do. -/
theorem step_cases {s t : State} (h : step s = .next t) :
    s.cfg.Legal ∧
      ((s.pending = [] ∧ t = s) ∨
       (∃ rest, s.pending = .reset :: rest ∧ t = hostReset { s with pending := rest }) ∨
       (∃ tx rest cause, s.pending = .transact tx :: rest ∧ decode s.cfg tx = .busError cause ∧
          t = raiseBusError tx.kind tx.addr { s with pending := rest }) ∨
       (∃ tx rest i, s.pending = .transact tx :: rest ∧ decode s.cfg tx = .instr i ∧
          exec i { s with pending := rest } = .next t)) := by
  unfold step at h
  split at h
  · rename_i hl
    refine ⟨hl, ?_⟩
    cases hp : s.pending with
    | nil =>
      simp only [takeAction, hp] at h
      injection h with h
      exact .inl ⟨rfl, h.symm⟩
    | cons act rest =>
      cases act with
      | reset =>
        simp only [takeAction, hp] at h
        injection h with h
        exact .inr (.inl ⟨rest, rfl, h.symm⟩)
      | transact tx =>
        simp only [takeAction, hp] at h
        cases hd : decode s.cfg tx with
        | busError cause =>
          simp only [hd] at h
          injection h with h
          exact .inr (.inr (.inl ⟨tx, rest, cause, rfl, hd, h.symm⟩))
        | instr i =>
          simp only [hd] at h
          exact .inr (.inr (.inr ⟨tx, rest, i, rfl, hd, h⟩))
  · cases h

theorem step_idle {s : State} (h : s.cfg.Legal) (hp : s.pending = []) : step s = .next s := by
  unfold step; rw [if_pos h]; simp only [takeAction, hp]

theorem step_reset {s : State} {rest : List HostAction} (h : s.cfg.Legal) (hp : s.pending = .reset :: rest) :
    step s = .next (hostReset { s with pending := rest }) := by
  unfold step; rw [if_pos h]; simp only [takeAction, hp]

theorem step_busError {s : State} {tx : Transaction} {rest : List HostAction} {cause : BusErrorCause}
    (h : s.cfg.Legal) (hp : s.pending = .transact tx :: rest) (hd : decode s.cfg tx = .busError cause) :
    step s = .next (raiseBusError tx.kind tx.addr { s with pending := rest }) := by
  unfold step; rw [if_pos h]; simp only [takeAction, hp, hd]

end Sys2Proof.Machine
end

