-- ==== Sys2Proof/Laws/Commands.lean ====
section
/-! SUPPORT. Everything a command word can do, said once. -/

namespace Sys2Proof.Machine

/-- Everything a command word written to CMD can do: be discarded with one command error, or have its effect (R26, R164). -/
theorem command_cases {w : Word} {s t : State} (h : exec (decodeCommand w) s = .next t) :
    s.cfg.Legal ∧
    ((∃ e, e ≠ .access ∧ t = raiseCmdError e w s) ∨
     (w.toNat % 256 = 1 ∧ s.seq = none ∧ t = okayWrite (setPixelEffect (colorField w) s)) ∨
     (w.toNat % 256 = 2 ∧ s.seq = none ∧ t = okayWrite (fillRectEffect (colorField w) s)) ∨
     (w.toNat % 256 = 3 ∧ s.seq = none ∧ t = okayWrite (seqBeginEffect s)) ∨
     (w.toNat % 256 = 4 ∧ s.seq ≠ none ∧ t = okayWrite (seqPushEffect (colorField w) s)) ∨
     (w.toNat % 256 = 5 ∧ t = okayWrite (seqEndEffect s))) := by
  rw [← performCommand_eq_exec] at h
  unfold performCommand at h
  cases ho : opcodeOf (opField w) with
  | none =>
    rw [ho] at h
    obtain ⟨hl, h⟩ := perform_next_iff.1 h
    exact ⟨hl, .inl ⟨.illegalOp, by decide, h.symm⟩⟩
  | some op =>
    have hb := opcodeByte_of_opcodeOf ho
    have hf := commandWord_fields hb
    have hn : w.toNat % 256 = (opcodeByte op).toNat := by rw [← hb, opField_toNat]
    rw [ho] at h
    cases op <;>
    · obtain ⟨hl, h⟩ := runCommand_cases h
      rw [hf] at h
      refine ⟨hl, ?_⟩
      rcases h with ⟨-, h⟩ | ⟨-, e, he, h⟩ | ⟨-, he, h⟩
      · exact .inl ⟨.reserved, by decide, h⟩
      · refine .inl ⟨e, ?_, h⟩
        first
          | (rw [(requireNoSeq_some he).1]; decide)
          | (rw [(requireSeq_some he).1]; decide)
          | cases he
      · simp only [requireNoSeq_eq_none, requireSeq_eq_none] at he
        have hn : _ = _ := hn
        simp only [opcodeByte] at hn
        simp [hn, he, h]

/-- R85's check for the commands with a colour, on numbers. -/
theorem reservedColor_iff {c : Config} {rsv : BitVec 16} {color : Byte} (hc : c.Legal) :
    reservedColor c rsv color = true ↔ rsv.toNat ≠ 0 ∨ 2 ^ c.nPlanes ≤ color.toNat := by
  have := legal_iff.1 hc
  obtain ⟨-,-,-,-,-,h1,h2,-⟩ := this
  have key : ∀ n : Fin 9, ∀ color : Byte, (color &&& (0xFF#8 <<< n.val) ≠ 0) ↔ 2 ^ n.val ≤ color.toNat := by decide
  have := key ⟨c.nPlanes, by omega⟩ color
  simp only at this
  rw [reservedColor, Bool.or_eq_true, decide_eq_true_eq, decide_eq_true_eq, colorMask, this]
  rw [ne_eq, ← BitVec.toNat_inj]; rfl

/-- R85's check for the commands without a colour, on numbers. -/
theorem reservedNoColor_iff {rsv : BitVec 16} {color : Byte} :
    reservedNoColor rsv color = true ↔ rsv.toNat ≠ 0 ∨ color.toNat ≠ 0 := by
  rw [reservedNoColor, Bool.or_eq_true, decide_eq_true_eq, decide_eq_true_eq]
  rw [ne_eq, ne_eq, ← BitVec.toNat_inj, ← BitVec.toNat_inj]; rfl

end Sys2Proof.Machine
end

