-- ==== Sys2Proof/Laws/Loops.lean ====
section
/-! SUPPORT. What a loop `for v in [a, b)` does, said once. -/

namespace Sys2Proof.Machine

theorem forRange_empty {α : Type} {a b : Nat} (h : b ≤ a) (f : Nat → α → α) (x : α) : forRange a b f x = x := by
  unfold forRange
  rw [Nat.sub_eq_zero_of_le h]
  rfl

theorem forRange_first {α : Type} {a b : Nat} (h : a < b) (f : Nat → α → α) (x : α) :
    forRange a b f x = forRange (a + 1) b f (f a x) := by
  unfold forRange
  rw [show b - a = (b - (a + 1)) + 1 by omega]
  rfl

/-- The induction of a loop: what holds before it and is passed on by every turn holds after it. -/
theorem forRange_induct {α : Type} {P : Nat → α → Prop} {a b : Nat} (hab : a ≤ b) {f : Nat → α → α} {x : α}
    (h0 : P a x) (hs : ∀ v y, a ≤ v → v < b → P v y → P (v + 1) (f v y)) : P b (forRange a b f x) := by
  obtain ⟨n, hn⟩ : ∃ n, n = b - a := ⟨_, rfl⟩
  induction n generalizing a x with
  | zero =>
    have : b = a := by omega
    subst this
    rw [forRange_empty (le_refl _)]
    exact h0
  | succ n ih =>
    rw [forRange_first (by omega)]
    exact ih (by omega) (hs a x (le_refl _) (by omega) h0) (fun v y h1 h2 => hs v y (by omega) h2) (by omega)

end Sys2Proof.Machine
end

