-- ==== Sys2Proof/Laws/Paint.lean ====
section
/-! SUPPORT. What each drawing operation of the datapath does to the store, said once: it keeps the store good, gives the
pixels it hits in plane k the bit `val k`, and leaves every other pixel and every other byte as it was. -/

namespace Sys2Proof.Machine

/-- `g` gives every pixel (k, px, py) of `hit` the bit `val k` and changes no other pixel, keeping the store good. -/
def Paints (c : Config) (hit : Nat → Nat → Nat → Prop) (val : Nat → Bool) (g : Memory → Memory) : Prop :=
  ∀ m, storeGood c m = true →
    storeGood c (g m) = true ∧
    ∀ k px py, InStore c k px py →
      (hit k px py → pixelBit c (g m) k px py = val k) ∧
      (¬hit k px py → pixelBit c (g m) k px py = pixelBit c m k px py)

theorem Paints.congr {c : Config} {hit hit' : Nat → Nat → Nat → Prop} {val : Nat → Bool} {g : Memory → Memory}
    (h : Paints c hit val g) (he : ∀ k px py, InStore c k px py → (hit k px py ↔ hit' k px py)) :
    Paints c hit' val g := by
  intro m hm
  refine ⟨(h m hm).1, fun k px py hs => ?_⟩
  rw [← he k px py hs]
  exact (h m hm).2 k px py hs

theorem Paints.none {c : Config} {hit : Nat → Nat → Nat → Prop} {val : Nat → Bool}
    (he : ∀ k px py, InStore c k px py → ¬hit k px py) : Paints c hit val id :=
  fun _ hm => ⟨hm, fun k px py hs => ⟨fun h => absurd h (he k px py hs), fun _ => rfl⟩⟩

theorem Paints.comp {c : Config} {hit₁ hit₂ : Nat → Nat → Nat → Prop} {val : Nat → Bool} {g₁ g₂ : Memory → Memory}
    (h₁ : Paints c hit₁ val g₁) (h₂ : Paints c hit₂ val g₂) :
    Paints c (fun k px py => hit₁ k px py ∨ hit₂ k px py) val (fun m => g₂ (g₁ m)) := by
  intro m hm
  obtain ⟨hg₁, hp₁⟩ := h₁ m hm
  obtain ⟨hg₂, hp₂⟩ := h₂ (g₁ m) hg₁
  refine ⟨hg₂, fun k px py hs => ⟨fun h => ?_, fun h => ?_⟩⟩
  · by_cases h2 : hit₂ k px py
    · exact (hp₂ k px py hs).1 h2
    · rw [(hp₂ k px py hs).2 h2]
      exact (hp₁ k px py hs).1 (h.resolve_right h2)
  · rw [(hp₂ k px py hs).2 (fun h2 => h (.inr h2)), (hp₁ k px py hs).2 (fun h1 => h (.inl h1))]

/-- A loop paints what its turns paint. -/
theorem Paints.forRange {c : Config} {hit : Nat → Nat → Nat → Nat → Prop} {val : Nat → Bool} {a b : Nat}
    {f : Nat → Memory → Memory} (h : ∀ v, a ≤ v → v < b → Paints c (hit v) val (f v)) :
    Paints c (fun k px py => ∃ v, a ≤ v ∧ v < b ∧ hit v k px py) val (Machine.forRange a b f) := by
  rcases Nat.lt_or_ge b a with hlt | hab
  · have : Machine.forRange a b f = id := funext fun m => forRange_empty (by omega) f m
    rw [this]
    exact Paints.none fun k px py _ ⟨v, h1, h2, _⟩ => by omega
  intro m hm
  have := forRange_induct (P := fun u y => storeGood c y = true ∧ ∀ k px py, InStore c k px py →
      ((∃ v, a ≤ v ∧ v < u ∧ hit v k px py) → pixelBit c y k px py = val k) ∧
      ((¬∃ v, a ≤ v ∧ v < u ∧ hit v k px py) → pixelBit c y k px py = pixelBit c m k px py))
    hab (f := f) (x := m)
    ⟨hm, fun k px py _ => ⟨fun ⟨v, h1, h2, _⟩ => by omega, fun _ => rfl⟩⟩
    (fun u y h1 h2 ⟨hg, hp⟩ => by
      obtain ⟨hg', hp'⟩ := h u h1 h2 y hg
      refine ⟨hg', fun k px py hs => ⟨fun ⟨v, h3, h4, h5⟩ => ?_, fun hn => ?_⟩⟩
      · by_cases hu : hit u k px py
        · exact (hp' k px py hs).1 hu
        · rw [(hp' k px py hs).2 hu]
          have : v ≠ u := by rintro rfl; exact hu h5
          exact (hp k px py hs).1 ⟨v, h3, by omega, h5⟩
      · rw [(hp' k px py hs).2 fun hu => hn ⟨u, h1, by omega, hu⟩]
        exact (hp k px py hs).2 fun ⟨v, h3, h4, h5⟩ => hn ⟨v, h3, by omega, h5⟩)
  exact this

/-- The bytes a painting leaves alone: every host byte offset that holds no hit pixel. -/
theorem Paints.read {c : Config} (hc : c.Legal) {hit : Nat → Nat → Nat → Prop} {val : Nat → Bool}
    {g : Memory → Memory} (h : Paints c hit val g) {m : Memory} (hm : storeGood c m = true) (a : Nat)
    (ha : ∀ k px py, InStore c k px py → hit k px py → a ≠ storeAddr c k (byteIndex c px py)) :
    (g m).read a = m.read a := by
  obtain ⟨hg, hp⟩ := h m hm
  have unlisted : ∀ {l : Memory}, storeGood c l = true → isStoreAddr c a = false → l.read a = Memory.unlisted := by
    intro l hl ha
    simp only [storeGood, Bool.and_eq_true] at hl
    replace hl := hl.2
    induction l with
    | nil => rfl
    | cons cell rest ih =>
      simp only [List.all_cons, Bool.and_eq_true] at hl
      have : a ≠ cell.1 := by rintro rfl; simp_all
      rw [show cell :: rest = (cell.1, cell.2) :: rest from rfl, Memory.read, if_neg this, ih hl.2]
  by_cases hst : isStoreAddr c a = true
  · obtain ⟨hk, hi, hs⟩ := storeAddr_of_isStoreAddr hc hst
    refine BitVec.eq_of_getLsbD_eq fun j hj => ?_
    obtain ⟨px, py, hx, hy, hbi, hbp⟩ := pixel_surj hc hi hj
    have := (hp _ px py ⟨hk, hx, hy⟩).2 fun hh => ha _ px py ⟨hk, hx, hy⟩ hh (by rw [hbi]; exact hs)
    unfold pixelBit fbRead at this
    rw [hbi, hbp, ← hs] at this
    exact this
  · rw [unlisted hg (by simpa using hst), unlisted hm (by simpa using hst)]

/-- A byte store of 0xFF or 0x00 paints the eight pixels of its byte. -/
theorem paints_runByte {c : Config} (hc : c.Legal) {k i : Nat} (b : Bool) (hk : k < c.nPlanes) (hi : i < c.bufBytes) :
    Paints c (fun k' px py => k' = k ∧ byteIndex c px py = i) (fun _ => b) (fbWrite c k i (runByte b)) := by
  have hs := legal_stride hc
  refine fun m hm => ⟨fbWrite_good hc hm _ hk hi, fun k' px py hp => ?_⟩
  have hb := byteIndex_lt hc hp.2.1 hp.2.2
  unfold pixelBit
  rw [fbRead_fbWrite (storeGood_wf hm) _ (by omega) (by omega)]
  refine ⟨fun h => ?_, fun h => by rw [if_neg h]⟩
  rw [if_pos h]
  have := bitPos_lt c px
  cases b
  · simp [runByte]
  · simp only [runByte, if_true]
    generalize bitPos c px = j at *
    interval_cases j <;> rfl

/-- PlotPlane paints the one pixel it names when that is in bounds, and nothing otherwise (R101). -/
theorem paints_plotPlane {c : Config} (hc : c.Legal) {k : Nat} (px py : Int) (b : Bool) (hk : k < c.nPlanes) :
    Paints c (fun k' x y => k' = k ∧ px = x ∧ py = y) (fun _ => b) (plotPlane c k px py b) := by
  have hs := legal_stride hc
  intro m hm
  unfold plotPlane
  split
  · rename_i hin
    obtain ⟨h1, h2, h3, h4⟩ := hin
    obtain ⟨x, rfl⟩ := Int.eq_ofNat_of_zero_le h1
    obtain ⟨y, rfl⟩ := Int.eq_ofNat_of_zero_le h3
    simp only [Int.toNat_natCast, Nat.cast_lt, Nat.cast_inj] at *
    have hb := byteIndex_lt hc h2 h4
    refine ⟨fbWrite_good hc hm _ hk hb, fun k' x' y' hp => ?_⟩
    have hb' := byteIndex_lt hc hp.2.1 hp.2.2
    have key : pixelBit c (fbWrite c k (byteIndex c x y)
        ((fbRead c k (byteIndex c x y) m &&& ~~~pixelMask c x) ||| (if b then pixelMask c x else 0)) m) k' x' y' =
        if k' = k ∧ x = x' ∧ y = y' then b else pixelBit c m k' x' y' := by
      unfold pixelBit
      rw [fbRead_fbWrite (storeGood_wf hm) _ (by omega) (by omega)]
      by_cases hkk : k' = k ∧ byteIndex c x' y' = byteIndex c x y
      · obtain ⟨rfl, hbi⟩ := hkk
        rw [if_pos ⟨rfl, hbi⟩]
        unfold pixelMask
        rw [getLsbD_setBit _ _ (bitPos_lt c x) (bitPos_lt c x')]
        by_cases hbp : bitPos c x' = bitPos c x
        · obtain ⟨rfl, rfl⟩ := pixel_inj hc hp.2.1 h2 hbi hbp
          rw [if_pos rfl, if_pos ⟨rfl, rfl, rfl⟩]
        · rw [if_neg hbp, if_neg (by rintro ⟨-, rfl, rfl⟩; exact hbp rfl), hbi]
      · rw [if_neg hkk, if_neg (by rintro ⟨rfl, rfl, rfl⟩; exact hkk ⟨rfl, rfl⟩)]
    exact ⟨fun h => by rw [key, if_pos h], fun h => by rw [key, if_neg h]⟩
  · rename_i hout
    refine ⟨hm, fun k' x' y' hp => ⟨fun ⟨_, h1, h2⟩ => absurd ?_ hout, fun _ => rfl⟩⟩
    obtain ⟨_, hx, hy⟩ := hp
    subst h1 h2
    refine ⟨by omega, by omega, by omega, by omega⟩

/-- Plot paints its pixel in every plane, plane k with colour bit k (R103). -/
theorem paints_plot {c : Config} (hc : c.Legal) (px py : Int) (color : Byte) :
    Paints c (fun _ x y => px = x ∧ py = y) (fun k => color.getLsbD k) (plot c px py color) := by
  have step : ∀ v, 0 ≤ v → v < c.nPlanes →
      Paints c (fun k x y => k = v ∧ px = x ∧ py = y) (fun k => color.getLsbD k)
        (plotPlane c v px py (planeBit color v)) := by
    intro v _ hv m hm
    obtain ⟨hg, hp⟩ := paints_plotPlane hc px py (planeBit color v) hv m hm
    refine ⟨hg, fun k x y hs => ⟨fun h => ?_, (hp k x y hs).2⟩⟩
    rw [(hp k x y hs).1 h, h.1]
    rfl
  refine (Paints.forRange step).congr fun k x y hs => ?_
  exact ⟨fun ⟨_, _, _, _, h⟩ => h, fun h => ⟨k, Nat.zero_le _, hs.1, rfl, h⟩⟩

/-- LogicalPlot paints the rotated point (R110). -/
theorem paints_logicalPlot {c : Config} (hc : c.Legal) (r : Rotation) (qx qy : Int) (color : Byte) :
    Paints c (fun _ x y => rot c r qx qy = ((x : Int), (y : Int))) (fun k => color.getLsbD k)
      (logicalPlot c r qx qy color) :=
  (paints_plot hc _ _ color).congr fun _ _ _ _ => by rw [Prod.ext_iff]

/-- Columns [x0, x1) of a row, bit by bit. -/
theorem paints_plotColumns {c : Config} (hc : c.Legal) {k : Nat} (py x0 x1 : Nat) (b : Bool) (hk : k < c.nPlanes) :
    Paints c (fun k' x y => k' = k ∧ y = py ∧ x0 ≤ x ∧ x < x1) (fun _ => b) (plotColumns c k py x0 x1 b) := by
  refine (Paints.forRange fun v _ _ => paints_plotPlane hc (v : Int) (py : Int) b hk).congr fun k' x y _ => ?_
  simp only [Nat.cast_inj]
  exact ⟨fun ⟨v, h1, h2, h3, h4, h5⟩ => ⟨h3, by omega, by omega, by omega⟩,
    fun ⟨h1, h2, h3, h4⟩ => ⟨x, h3, h4, h1, rfl, by omega⟩⟩

theorem byteIndex_row {c : Config} (hc : c.Legal) {px py j y : Nat} (hx : px < c.fbW) (hj : j < c.rowBytes) :
    byteIndex c px py = y * c.rowBytes + j ↔ py = y ∧ px / 8 = j := by
  have hr := legal_row hc
  have : y * c.rowBytes + j = byteIndex c (8 * j) y := by
    unfold byteIndex; rw [Nat.mul_div_cancel_left _ (by omega)]
  rw [this]
  refine ⟨fun h => ?_, fun ⟨h1, h2⟩ => by unfold byteIndex; rw [h1, h2, Nat.mul_div_cancel_left _ (by omega)]⟩
  have := byteIndex_inj hc hx (by omega) h
  omega

/-- The byte run [j0, j1) of a row paints columns [8 * j0, 8 * j1). -/
theorem paints_storeRun {c : Config} (hc : c.Legal) {k py j0 j1 : Nat} (b : Bool) (hk : k < c.nPlanes)
    (hy : py < c.fbH) (hj : j1 ≤ c.rowBytes) :
    Paints c (fun k' x y => k' = k ∧ y = py ∧ 8 * j0 ≤ x ∧ x < 8 * j1) (fun _ => b) (storeRun c k py j0 j1 b) := by
  have hr := legal_row hc
  have hlt : ∀ j, j < j1 → py * c.rowBytes + j < c.bufBytes := by
    intro j h
    have := byteIndex_lt hc (px := 8 * j) (py := py) (by omega) hy
    unfold byteIndex at this
    rwa [Nat.mul_div_cancel_left _ (by omega)] at this
  refine (Paints.forRange fun v _ hv => paints_runByte hc b hk (hlt v hv)).congr fun k' x y hs => ?_
  constructor
  · rintro ⟨v, h1, h2, h3, h4⟩
    have := (byteIndex_row hc hs.2.1 (by omega)).1 h4
    omega
  · rintro ⟨h1, h2, h3, h4⟩
    exact ⟨x / 8, by omega, by omega, h1, (byteIndex_row hc hs.2.1 (by omega)).2 ⟨h2, rfl⟩⟩

theorem ceil8_spec (v : Nat) : v ≤ ceil8 v ∧ ceil8 v < v + 8 ∧ ceil8 v = 8 * (ceil8 v / 8) := by
  unfold ceil8; omega

theorem floor8_spec (v : Nat) : floor8 v ≤ v ∧ v < floor8 v + 8 ∧ floor8 v = 8 * (floor8 v / 8) := by
  unfold floor8; omega

/-- FillRowPlane paints columns [x0, x1) of its row, whichever tiers it uses (R123). -/
theorem paints_fillRowPlane {c : Config} (hc : c.Legal) {k py x0 x1 : Nat} (b : Bool) (hk : k < c.nPlanes)
    (hy : py < c.fbH) (hx : x1 ≤ c.fbW) :
    Paints c (fun k' x y => k' = k ∧ y = py ∧ x0 ≤ x ∧ x < x1) (fun _ => b) (fillRowPlane c k py x0 x1 b) := by
  have hr := legal_row hc
  have ha := ceil8_spec x0
  have he := floor8_spec x1
  by_cases h : ceil8 x0 < floor8 x1
  · have hg : fillRowPlane c k py x0 x1 b = fun m => plotColumns c k py (floor8 x1) x1 b
        (storeRun c k py (ceil8 x0 / 8) (floor8 x1 / 8) b (plotColumns c k py x0 (ceil8 x0) b m)) :=
      funext fun m => by rw [fillRowPlane, if_pos h]
    rw [hg]
    refine (((paints_plotColumns hc py x0 (ceil8 x0) b hk).comp
      (paints_storeRun hc b hk hy (by omega))).comp (paints_plotColumns hc py (floor8 x1) x1 b hk)).congr
      fun k' x y _ => ?_
    omega
  · have hg : fillRowPlane c k py x0 x1 b = plotColumns c k py x0 x1 b :=
      funext fun m => by rw [fillRowPlane, if_neg h]
    rw [hg]
    exact paints_plotColumns hc py x0 x1 b hk

/-- The fill of a box inside the store paints the box in every plane, plane k with colour bit k (R122, R124). -/
theorem paints_fillBox {c : Config} (hc : c.Legal) {box : ClipBox} (color : Byte) (hx0 : 0 ≤ box.x0)
    (hx1 : box.x1 ≤ c.fbW) (hy0 : 0 ≤ box.y0) (hy1 : box.y1 ≤ c.fbH) :
    Paints c (fun _ x y => BoxHas box x y) (fun k => color.getLsbD k) (fillBox c box color) := by
  have plane : ∀ v, 0 ≤ v → v < c.nPlanes →
      Paints c (fun k x y => k = v ∧ BoxHas box x y) (fun k => color.getLsbD k)
        (fun m => forRange box.y0.toNat box.y1.toNat (fun py m =>
          fillRowPlane c v py box.x0.toNat box.x1.toNat (planeBit color v) m) m) := by
    intro v _ hv m hm
    have rows := (Paints.forRange (a := box.y0.toNat) (b := box.y1.toNat) fun py h1 h2 =>
      paints_fillRowPlane hc (x0 := box.x0.toNat) (x1 := box.x1.toNat) (planeBit color v) hv
        (show py < c.fbH by omega) (by omega))
    obtain ⟨hg, hp⟩ := rows.congr (hit' := fun k x y => k = v ∧ BoxHas box x y)
      (fun k x y _ => ⟨fun ⟨py, h1, h2, h3, h4, h5, h6⟩ => ⟨h3, by omega, by omega, by omega, by omega⟩,
        fun ⟨h1, h2, h3, h4, h5⟩ => ⟨y, by omega, by omega, h1, rfl, by omega, by omega⟩⟩) m hm
    refine ⟨hg, fun k x y hs => ⟨fun h => ?_, (hp k x y hs).2⟩⟩
    rw [(hp k x y hs).1 h, h.1]
    rfl
  refine (Paints.forRange plane).congr fun k x y hs => ?_
  exact ⟨fun ⟨_, _, _, _, h⟩ => h, fun h => ⟨k, Nat.zero_le _, hs.1, rfl, h⟩⟩

@[simp] theorem clipBounds_x0 (c : Config) (a : Area) : (clipBounds c a).x0 = max a.x 0 := rfl
@[simp] theorem clipBounds_x1 (c : Config) (a : Area) : (clipBounds c a).x1 = min (a.x + a.w) c.fbW := rfl
@[simp] theorem clipBounds_y0 (c : Config) (a : Area) : (clipBounds c a).y0 = max a.y 0 := rfl
@[simp] theorem clipBounds_y1 (c : Config) (a : Area) : (clipBounds c a).y1 = min (a.y + a.h) c.fbH := rfl

/-- FILL_RECT's store: the rotated and clipped area (R122). -/
theorem paints_fillArea {c : Config} (hc : c.Legal) (r : Rotation) (a : Area) (color : Byte) :
    Paints c (fun _ x y => AreaHas (rotRect c r a) x y) (fun k => color.getLsbD k) (fillArea c r a color) := by
  intro m hm
  unfold fillArea clip
  generalize rotRect c r a = p
  by_cases he : (clipBounds c p).x1 ≤ (clipBounds c p).x0 ∨ (clipBounds c p).y1 ≤ (clipBounds c p).y0
  · rw [if_pos he]
    refine ⟨hm, fun k x y hs => ⟨fun hh => ?_, fun _ => rfl⟩⟩
    obtain ⟨_, hx, hy⟩ := hs
    simp only [clipBounds_x0, clipBounds_x1, clipBounds_y0, clipBounds_y1] at he
    omega
  · rw [if_neg he]
    simp only [clipBounds_x0, clipBounds_x1, clipBounds_y0, clipBounds_y1] at he
    refine ((paints_fillBox hc (box := clipBounds c p) color ?_ ?_ ?_ ?_).congr fun k x y hs => ?_) m hm
    all_goals simp only [clipBounds_x0, clipBounds_x1, clipBounds_y0, clipBounds_y1, BoxHas]
    · omega
    · omega
    · omega
    · omega
    · obtain ⟨_, hx, hy⟩ := hs
      simp only [AreaHas]
      omega

end Sys2Proof.Machine
end

