-- ==== Sys2Proof/Laws/PerInstr.lean ====
section
/-! SUPPORT. Statements about every instruction as syntax, one lemma per constructor. -/

namespace Sys2Proof.Laws

/-- Where an instruction's transaction stands on the host's address space (R56, R87), said of its encoding: a command is
the four-byte write of offset 0x18, its low byte the instruction's opcode (R81, R83); a register access is a four-byte
transaction at the register's offset (R22); and a well-formed aperture access of any legal configuration lies above the
register block and carries the address it names (R59, R61). -/
def EncodesInItsRegion.Statement (i : Instr) : Prop :=
  ∀ c : Config, c.Legal → i.WellFormed c = true →
    match i with
    | .setPixel rsv color => (encode i) = commandWrite (encode i).data ∧
        (encode i).data.toNat = rsv.toNat * 65536 + color.toNat * 256 + 1
    | .fillRect rsv color => (encode i) = commandWrite (encode i).data ∧
        (encode i).data.toNat = rsv.toNat * 65536 + color.toNat * 256 + 2
    | .seqBegin rsv color => (encode i) = commandWrite (encode i).data ∧
        (encode i).data.toNat = rsv.toNat * 65536 + color.toNat * 256 + 3
    | .seqPush rsv color => (encode i) = commandWrite (encode i).data ∧
        (encode i).data.toNat = rsv.toNat * 65536 + color.toNat * 256 + 4
    | .seqEnd rsv color => (encode i) = commandWrite (encode i).data ∧
        (encode i).data.toNat = rsv.toNat * 65536 + color.toNat * 256 + 5
    | .illegalOp w => (encode i) = commandWrite w ∧ (w.toNat % 256 = 0 ∨ 6 ≤ w.toNat % 256)
    | .regWrite r v => (encode i).kind = .write ∧ (encode i).width = .word ∧ (encode i).data = v ∧
        (encode i).addr.toNat = regOffset r ∧ (encode i).addr.toNat ≠ 0x18
    | .regRead r => (encode i).kind = .read ∧ (encode i).width = .word ∧ (encode i).addr.toNat = regOffset r
    | .fbReadByte a => (encode i).kind = .read ∧ (encode i).width = .byte ∧ (encode i).addr = a ∧ 0x1000 ≤ a.toNat
    | .fbReadWord a => (encode i).kind = .read ∧ (encode i).width = .word ∧ (encode i).addr = a ∧ 0x1000 ≤ a.toNat ∧
        a.toNat % 4 = 0
    | .fbWrite a n d => encode i = { kind := .write, addr := a, width := n, data := d } ∧ 0x1000 ≤ a.toNat

/-- An address at or above FB_BASE is above the register block (R5, R56). -/
theorem above_registers {c : Config} {a : Nat} (hc : c.Legal) (h : c.fbBase ≤ a) : 0x1000 ≤ a := by
  simp only [Config.Legal, Config.legal, Bool.and_eq_true, decide_eq_true_eq] at hc
  omega

/-- Bytes of a plane lie in the aperture. -/
theorem base_le_of_holdsBytes {c : Config} {a n : Nat} (h : c.holdsBytes a n = true) : c.fbBase ≤ a := by
  simp only [Config.holdsBytes, Bool.and_eq_true, decide_eq_true_eq] at h
  omega

theorem EncodesInItsRegion.setPixel (rsv : BitVec 16) (color : Byte) : EncodesInItsRegion.Statement (.setPixel rsv color) :=
  fun _ _ _ => ⟨rfl, commandWord_toNat rsv color .setPixel⟩

theorem EncodesInItsRegion.fillRect (rsv : BitVec 16) (color : Byte) : EncodesInItsRegion.Statement (.fillRect rsv color) :=
  fun _ _ _ => ⟨rfl, commandWord_toNat rsv color .fillRect⟩

theorem EncodesInItsRegion.seqBegin (rsv : BitVec 16) (color : Byte) : EncodesInItsRegion.Statement (.seqBegin rsv color) :=
  fun _ _ _ => ⟨rfl, commandWord_toNat rsv color .seqBegin⟩

theorem EncodesInItsRegion.seqPush (rsv : BitVec 16) (color : Byte) : EncodesInItsRegion.Statement (.seqPush rsv color) :=
  fun _ _ _ => ⟨rfl, commandWord_toNat rsv color .seqPush⟩

theorem EncodesInItsRegion.seqEnd (rsv : BitVec 16) (color : Byte) : EncodesInItsRegion.Statement (.seqEnd rsv color) :=
  fun _ _ _ => ⟨rfl, commandWord_toNat rsv color .seqEnd⟩

theorem EncodesInItsRegion.illegalOp (w : Word) : EncodesInItsRegion.Statement (.illegalOp w) := by
  intro c _ h
  simp only [Instr.WellFormed, Bool.or_eq_true, decide_eq_true_eq] at h
  exact ⟨rfl, h⟩

theorem EncodesInItsRegion.regWrite (r : Reg) (v : Word) : EncodesInItsRegion.Statement (.regWrite r v) := by
  intro c _ h
  refine ⟨rfl, rfl, rfl, regAddr_toNat r, ?_⟩
  have hr : r ≠ .cmd := of_decide_eq_true h
  show (regAddr r).toNat ≠ 0x18
  rw [regAddr_toNat]
  cases r <;> first | exact absurd rfl hr | decide

theorem EncodesInItsRegion.regRead (r : Reg) : EncodesInItsRegion.Statement (.regRead r) :=
  fun _ _ _ => ⟨rfl, rfl, regAddr_toNat r⟩

theorem EncodesInItsRegion.fbReadByte (a : Word) : EncodesInItsRegion.Statement (.fbReadByte a) :=
  fun _ hc h => ⟨rfl, rfl, rfl, above_registers hc (base_le_of_holdsBytes h)⟩

theorem EncodesInItsRegion.fbReadWord (a : Word) : EncodesInItsRegion.Statement (.fbReadWord a) := by
  intro c hc h
  simp only [Instr.WellFormed, Bool.and_eq_true, decide_eq_true_eq] at h
  exact ⟨rfl, rfl, rfl, above_registers hc (base_le_of_holdsBytes h.2), h.1⟩

theorem EncodesInItsRegion.fbWrite (a : Word) (n : Width) (d : Word) : EncodesInItsRegion.Statement (.fbWrite a n d) := by
  intro c hc h
  simp only [Instr.WellFormed, Bool.and_eq_true, decide_eq_true_eq] at h
  exact ⟨rfl, above_registers hc h.1⟩

end Sys2Proof.Laws
end

