-- ==== Sys2Proof/Laws/Steps.lean ====
section
/-! SUPPORT. What each family of instructions answers and leaves alone, and what one action of the host can do, said once. -/

namespace Sys2Proof.Machine

/-- A command that passes R164's checks has its effect. -/
theorem runCommand_ok {s : State} (hl : s.cfg.Legal) {w : Word} {reserved : Bool} {e : Option ErrorBit} {effect : State}
    (hr : reserved = false) (he : e = none) : runCommand s w reserved e effect = .next (okayWrite effect) := by
  rw [runCommand_legal hl, hr, he]; rfl

/-- A colour of NPLANES bits in a word with RSV = 0 is no reserved encoding (R85). -/
theorem reservedColor_of_fits {c : Config} (hl : c.Legal) {color : Byte} (h : ColorFits c color) :
    reservedColor c 0 color = false := by
  rw [← Bool.not_eq_true, reservedColor_iff hl]; simp; exact h

/-- Every command word is answered with OKAY and takes nothing off the port (R26, R162). -/
theorem command_answers {w : Word} {s : State} (hl : s.cfg.Legal) :
    ∃ t, exec (decodeCommand w) s = .next t ∧ t.response = okay ∧ t.pending = s.pending := by
  rw [← performCommand_eq_exec]
  unfold performCommand
  cases opcodeOf (opField w) with
  | none => exact ⟨_, perform_legal hl _, rfl, rfl⟩
  | some o =>
    cases o <;>
    · refine ⟨_, perform_legal hl _, ?_⟩
      split
      · exact ⟨rfl, rfl⟩
      · split <;> simp

/-- The write of a register that takes writes is answered with OKAY (R57). -/
theorem regWrite_answers {r : Reg} {v : Word} {s : State} (hl : s.cfg.Legal) (hr : r ≠ .cmd) (h : regOffset r < 0x1C) :
    ∃ t, exec (.regWrite r v) s = .next t ∧ t.response = okay ∧ t.pending = s.pending := by
  cases r <;> first
    | exact absurd rfl hr
    | exact absurd h (by decide)
    | exact ⟨_, perform_legal hl _, rfl, rfl⟩

/-- The write of a read-only register other than STATUS is a bus error (R57). -/
theorem regWrite_readOnly {r : Reg} {v : Word} {s : State} (hl : s.cfg.Legal) (h : 0x1C ≤ regOffset r) :
    exec (.regWrite r v) s = .next (raiseBusError .write (regAddr r) s) := by
  cases r <;> first
    | exact absurd h (by decide)
    | exact perform_legal hl _

/-- What a register write other than CMD's can change, register by register. -/
theorem regWrite_frame {r : Reg} {v : Word} {s t : State} (hr : r ≠ .cmd) (h : exec (.regWrite r v) s = .next t) :
    t.seq = s.seq ∧ t.fb = s.fb ∧ t.cfg = s.cfg ∧ t.pending = s.pending ∧ (t.rot ≠ s.rot → r = .ctrl) ∧
    (t.posX ≠ s.posX → r = .posX ∧ t.posX = v) ∧ (t.posY ≠ s.posY → r = .posY ∧ t.posY = v) ∧
    (t.extW ≠ s.extW → r = .extW ∧ t.extW = v) ∧ (t.extH ≠ s.extH → r = .extH ∧ t.extH = v) := by
  cases r <;> first
    | exact absurd rfl hr
    | (obtain ⟨-, rfl⟩ := perform_next_iff.1 h
       simp [okayWrite, raiseBusError])

/-- What a register write other than CMD's can do to the error bits and ERR_INFO. -/
theorem regWrite_errors {r : Reg} {v : Word} {s t : State} (hr : r ≠ .cmd) (h : exec (.regWrite r v) s = .next t) :
    (t.errBits = setErrorBit .access s.errBits ∧ t.errInfo = regAddr r ∧ 0x1C ≤ regOffset r) ∨
    (t.errBits = s.errBits ∧ t.errInfo = s.errInfo) ∨
    (r = .status ∧ t.errBits = clearErrorBits v s.errBits ∧ t.errInfo = s.errInfo) := by
  cases r <;> first
    | exact absurd rfl hr
    | (obtain ⟨-, rfl⟩ := perform_next_iff.1 h
       first
        | exact .inl ⟨rfl, rfl, by decide⟩
        | exact .inr (.inl ⟨rfl, rfl⟩)
        | exact .inr (.inr ⟨rfl, rfl, rfl⟩))

/-- What a command word can do to the error bits and ERR_INFO (R162). -/
theorem command_errors {w : Word} {s t : State} (h : exec (decodeCommand w) s = .next t) :
    (∃ e, e ≠ .access ∧ t.errBits = setErrorBit e s.errBits ∧ t.errInfo = w) ∨
    (t.errBits = s.errBits ∧ t.errInfo = s.errInfo) := by
  obtain ⟨-, ⟨e, he, rfl⟩ | ⟨-, -, rfl⟩ | ⟨-, -, rfl⟩ | ⟨-, -, rfl⟩ | ⟨-, -, rfl⟩ | ⟨-, rfl⟩⟩ := command_cases h
  · exact .inl ⟨e, he, rfl, rfl⟩
  all_goals exact .inr (by simp)

/-- A legal one-byte aperture read answers its byte (R59). -/
theorem fbReadByte_ok {a : Word} {s : State} (hl : s.cfg.Legal) (ha : inAperture s.cfg a.toNat = true)
    (ho : apertureOffset s.cfg a.toNat + 1 ≤ s.cfg.bufBytes) :
    exec (.fbReadByte a) s = .next (okayRead (apertureByte s a.toNat) s) := by
  refine (perform_legal hl _).trans ?_
  rw [if_pos (by simp [apertureHolds, ha, ho])]

/-- A legal four-byte aperture read answers its word (R59). -/
theorem fbReadWord_ok {a : Word} {s : State} (hl : s.cfg.Legal) (h4 : a.toNat % 4 = 0)
    (ha : inAperture s.cfg a.toNat = true) (ho : apertureOffset s.cfg a.toNat + 4 ≤ s.cfg.bufBytes) :
    exec (.fbReadWord a) s = .next (okayRead (apertureWord s a.toNat) s) := by
  refine (perform_legal hl _).trans ?_
  rw [if_pos ⟨h4, by simp [apertureHolds, ha, ho]⟩]

/-- Register reads and aperture transactions change nothing but the error bits, ERR_INFO and the response (R57, R60, R61). -/
theorem access_frame {i : Instr} {s t : State} (h : exec i s = .next t)
    (hi : (∃ r, i = .regRead r) ∨ (∃ a, i = .fbReadByte a) ∨ (∃ a, i = .fbReadWord a) ∨ (∃ a n d, i = .fbWrite a n d)) :
    t = { s with errBits := t.errBits, errInfo := t.errInfo, response := t.response } := by
  rcases hi with ⟨r, rfl⟩ | ⟨a, rfl⟩ | ⟨a, rfl⟩ | ⟨a, n, d, rfl⟩ <;> obtain ⟨-, rfl⟩ := perform_next_iff.1 h
  · rfl
  · split <;> rfl
  · split <;> rfl
  · rfl

/-- Everything one action of the host can do: a reset; a command word; a register write; or an access that changes
nothing but the error bits, ERR_INFO and the response. -/
theorem step_action_cases {act : HostAction} {rest : List HostAction} {s t : State} (hp : s.pending = act :: rest)
    (hst : step s = .next t) :
    s.cfg.Legal ∧
    (act = .reset ∧ t = hostReset { s with pending := rest } ∨
     ∃ tx, act = .transact tx ∧
      ((IsWordWrite tx 0x18 ∧ exec (decodeCommand tx.data) { s with pending := rest } = .next t) ∨
       (∃ r, r ≠ .cmd ∧ IsWordWrite tx (regOffset r) ∧ exec (.regWrite r tx.data) { s with pending := rest } = .next t) ∨
       t = { s with pending := rest, errBits := t.errBits, errInfo := t.errInfo, response := t.response })) := by
  obtain ⟨hl, ⟨h, rfl⟩ | ⟨r, h, rfl⟩ | ⟨tx, r, c, h, hd, rfl⟩ | ⟨tx, r, i, h, hd, he⟩⟩ := step_cases hst <;>
    refine ⟨hl, ?_⟩
  · simp [hp] at h
  · rw [hp] at h; injection h with h1 h2; subst h2; exact .inl ⟨h1, rfl⟩
  · rw [hp] at h; injection h with h1 h2; subst h1 h2
    exact .inr ⟨tx, rfl, .inr (.inr rfl)⟩
  · rw [hp] at h; injection h with h1 h2; subst h1 h2
    refine .inr ⟨tx, rfl, ?_⟩
    rcases decode_instr_cases hd with ⟨hw, rfl⟩ | ⟨r, hr, hw, rfl⟩ | ⟨r, h1, h2, h3, rfl⟩ |
      ⟨h0, hk, hw, ha, ho, rfl⟩ | ⟨h0, hk, hw, h4, ha, ho, rfl⟩ | ⟨h0, hk, ha, rfl⟩
    · exact .inl ⟨hw, he⟩
    · exact .inr (.inl ⟨r, hr, hw, he⟩)
    · exact .inr (.inr (access_frame he (.inl ⟨_, rfl⟩)))
    · exact .inr (.inr (access_frame he (.inr (.inl ⟨_, rfl⟩))))
    · exact .inr (.inr (access_frame he (.inr (.inr (.inl ⟨_, rfl⟩)))))
    · exact .inr (.inr (access_frame he (.inr (.inr (.inr ⟨_, _, _, rfl⟩)))))

/-- One more step of a run of the host's machine. -/
theorem core_run_succ {s s' : State} (n : Nat) (h : step s = .next s') :
    Sys2Proof.core.run (n + 1) s = Sys2Proof.core.run n s' := by
  have unfolded : ∀ (M : Host.Core) (x y : M.State), M.step x = .next y → M.run (n + 1) x = M.run n y := by
    intro M x y hxy
    have e : M.run (n + 1) x = match M.step x with
        | .next z => M.run n z
        | .fault r => .fault r
        | .refused r => .refused r := rfl
    rw [e, hxy]
  exact unfolded Sys2Proof.core s s' h

end Sys2Proof.Machine
end

