-- ==== Sys2Proof/Tests/Slice0.lean ====
section
/-! SUPPORT. The author's own tests: small facts on fixed values taken from 95_test_vectors.md or worked from the rules by
hand, and for each statement with hypotheses a concrete case that meets all of them. -/

namespace Sys2Proof.Tests

open Sys2Proof Sys2Proof.Machine

/-! ### Configurations and small states -/

/-- G2 of 95_test_vectors.md: 16 × 4, one plane. -/
def cfgTwo : Config := Config.withDefaults 16 4 1

/-- G3 of 95_test_vectors.md: 8 × 2, two planes. -/
def cfgThree : Config := Config.withDefaults 8 2 2

/-- The reset state of G2. -/
def two : State := State.resetWith cfgTwo

/-- A state with the area operand registers set. -/
def withArea (s : State) (x y w h : Word) : State := { s with posX := x, posY := y, extW := w, extH := h }

/-- An open sequence of two positions of row 0 at its first position. -/
def twoPositions : Sequence := { x0 := 0, y0 := 0, w := 2, h := 1, rot := .none, idx := 0 }

/-- G2 with that sequence open. -/
def twoOpen : State := { two with seq := some twoPositions }

/-- The four-byte write of `v` at an offset. -/
def writeAt (a v : Word) : Transaction := { kind := .write, addr := a, width := .word, data := v }

/-- A read at an offset. -/
def readAt (a : Word) (n : Width) : Transaction := { kind := .read, addr := a, width := n, data := 0 }

/-- The state with one transaction on the port. -/
def asked (s : State) (tx : Transaction) : State := { s with pending := [.transact tx] }

/-- The next state, or the same state where there is none. -/
def resultOf (o : Result) (s : State) : State :=
  match o with
  | .next t => t
  | _ => s

/-- The state after a step. -/
def stepOf (s : State) : State := resultOf (step s) s

/-- The state after an instruction. -/
def execOf (i : Instr) (s : State) : State := resultOf (exec i s) s

/-- The bytes of plane `k`, from byte 0. -/
def bytesOf (s : State) (k : Nat) : List Byte := (List.range s.cfg.bufBytes).map (fun i => fbRead s.cfg k i s.fb)

/-! ### WellFormed: an ill-formed term for each check -/

theorem test_illFormed_illegalOp_with_legal_op : (Instr.illegalOp 0x00000101).WellFormed cfgTwo = false := by decide
theorem test_illFormed_regWrite_of_cmd : (Instr.regWrite .cmd 0).WellFormed cfgTwo = false := by decide
theorem test_illFormed_fbReadByte_below_aperture : (Instr.fbReadByte 0x000FFFFF).WellFormed cfgTwo = false := by decide
theorem test_illFormed_fbReadByte_past_aperture : (Instr.fbReadByte 0x00100008).WellFormed cfgTwo = false := by decide
theorem test_illFormed_fbReadByte_padding : (Instr.fbReadByte 0x00100018).WellFormed Config.reference = false := by decide
theorem test_illFormed_fbReadWord_misaligned : (Instr.fbReadWord 0x00100001).WellFormed cfgTwo = false := by decide
theorem test_illFormed_fbReadWord_outside : (Instr.fbReadWord 0x00100004).WellFormed cfgThree = false := by decide
theorem test_illFormed_fbWrite_below : (Instr.fbWrite 0x000FFFFF .byte 0).WellFormed cfgTwo = false := by decide
theorem test_illFormed_fbWrite_past : (Instr.fbWrite 0x00100008 .byte 0).WellFormed cfgTwo = false := by decide

/-- R5's constraints, one broken at a time: a width that is no multiple of 8, no row, no plane, a misaligned or low base, a
stride that is no multiple of 4 or too small, an empty batch, an aperture past the address space. -/
theorem test_illegal_configurations :
    ¬{ cfgTwo with fbW := 20 }.Legal ∧ ¬{ cfgTwo with fbW := 0 }.Legal ∧ ¬{ cfgTwo with fbW := 65536 }.Legal ∧
    ¬{ cfgTwo with fbH := 0 }.Legal ∧ ¬{ cfgTwo with fbH := 65536 }.Legal ∧
    ¬{ cfgTwo with nPlanes := 0 }.Legal ∧ ¬{ cfgTwo with nPlanes := 9 }.Legal ∧
    ¬{ cfgTwo with fbBase := 0x00100002 }.Legal ∧ ¬{ cfgTwo with fbBase := 0x0FFC }.Legal ∧
    ¬{ cfgTwo with planeStride := 10 }.Legal ∧ ¬{ cfgTwo with planeStride := 4 }.Legal ∧
    ¬{ cfgTwo with batch := 0 }.Legal ∧ ¬{ cfgTwo with fbBase := 0xFFFFFFFC }.Legal ∧
    cfgTwo.Legal ∧ cfgThree.Legal ∧ Config.reference.Legal := by decide

/-! ### Decoding: words and transactions written out from R22, R81, R83, R87, R88 -/

theorem test_decode_setPixel : decodeTableWord 32 0b00000000000000000000000100000001 = some (.setPixel 0 1) := by decide
theorem test_decode_fillRect : decodeTableWord 32 0b00000000000000001111111100000010 = some (.fillRect 0 0xFF) := by decide
theorem test_decode_seqBegin : decodeTableWord 32 0b00000000000000000000000000000011 = some (.seqBegin 0 0) := by decide
theorem test_decode_seqPush : decodeTableWord 32 0b00000000000000000000001000000100 = some (.seqPush 0 2) := by decide
theorem test_decode_seqEnd : decodeTableWord 32 0b10000000000000000000000000000101 = some (.seqEnd 0x8000 0) := by decide
theorem test_decode_illegalOp : decodeTableWord 32 0b11111111111111110000000000000111 = some (.illegalOp 0xFFFF0007) := by
  decide
theorem test_decode_regWrite : decode cfgTwo (writeAt 0x00000028 5) = .instr (.regWrite .geomW 5) := by decide
theorem test_decode_regRead : decode cfgTwo (readAt 0x00000024 .word) = .instr (.regRead .seqRemainHi) := by decide
theorem test_decode_fbReadByte : decode cfgTwo (readAt 0x00100007 .byte) = .instr (.fbReadByte 0x00100007) := by decide
theorem test_decode_fbReadWord : decode cfgTwo (readAt 0x00100004 .word) = .instr (.fbReadWord 0x00100004) := by decide
theorem test_decode_fbWrite :
    decode cfgTwo { kind := .write, addr := 0x00100000, width := .byte, data := 0xFF }
      = .instr (.fbWrite 0x00100000 .byte 0xFF) := by decide

/-- B2 to B5, B7, B8 and B9: what the decoder rejects, by name. -/
theorem test_decode_rejects :
    decode cfgTwo (readAt 0x44 .word) = .busError .registerUnmapped ∧
    decode cfgTwo (readAt 0x08 .byte) = .busError .registerWidth ∧
    decode cfgTwo (readAt 0x09 .word) = .busError .registerMisaligned ∧
    decode cfgTwo (readAt 0x00100001 .word) = .busError .apertureMisaligned ∧
    decode cfgTwo (readAt 0x00100000 .half) = .busError .apertureWidth ∧
    decode cfgTwo (readAt 0x00100008 .byte) = .busError .unmapped ∧
    decode Config.reference (readAt 0x00100018 .byte) = .busError .aperturePadding ∧
    decode cfgThree (readAt 0x00100004 .word) = .busError .aperturePadding := by decide

/-! ### The machine from reset -/

/-- The interface runs a table word as the first instruction after reset. -/
theorem test_withFetchWord_runs :
    step (State.reset.withFetchWord 32 0x00000101) = exec (.setPixel 0 1) State.reset := by rfl

/-! ### One step of each instruction, from 95_test_vectors.md -/

/-- S2: the last pixel. -/
theorem test_setPixel_last : bytesOf (execOf (.setPixel 0 1) (withArea two 15 3 0 0)) 0 = [0, 0, 0, 0, 0, 0, 0, 0x01] := by
  decide

/-- S10: rotation 90°, logical (3, 15) to physical (0, 3). -/
theorem test_setPixel_rotated :
    bytesOf (execOf (.setPixel 0 1) { withArea two 3 15 0 0 with rot := .cw90 }) 0 = [0, 0, 0, 0, 0, 0, 0x80, 0] := by decide

/-- W4: the source's unaligned fill, G1. -/
theorem test_fillRect_unaligned :
    bytesOf (execOf (.fillRect 0 1) (withArea State.reset 6 2 18 3)) 0 =
      [0, 0, 0, 0, 0, 0, 0x03, 0xFF, 0xFF, 0x03, 0xFF, 0xFF, 0x03, 0xFF, 0xFF, 0, 0, 0, 0, 0, 0, 0, 0, 0] := by decide

/-- F16: rotation 90°, the rotated rectangle clipped. -/
theorem test_fillRect_rotated_clipped :
    bytesOf (execOf (.fillRect 0 1) { withArea two 2 14 5 5 with rot := .cw90 }) 0 = [0, 0, 0, 0, 0xC0, 0, 0xC0, 0] := by
  decide

/-- R141's worked example. -/
theorem test_seqBegin_opens :
    (execOf (.seqBegin 0 0) (withArea two (BitVec.ofInt 32 (-1)) 0 2 2)).seq =
      some { x0 := -1, y0 := 0, w := 2, h := 2, rot := .none, idx := 0 } := by decide

/-- Q4: an empty area opens nothing. -/
theorem test_seqBegin_empty_area : (execOf (.seqBegin 0 0) (withArea two 0 0 0 5)).seq = none := by decide

/-- The second position of a sequence, after which it closes (Q7). -/
theorem test_seqPush_last_position :
    (execOf (.seqPush 0 1) { two with seq := some { twoPositions with idx := 1 } }).seq = none ∧
    bytesOf (execOf (.seqPush 0 1) { two with seq := some { twoPositions with idx := 1 } }) 0 =
      [0x40, 0, 0, 0, 0, 0, 0, 0] := by decide

/-- Q2: a push with no sequence open. -/
theorem test_seqPush_without_sequence :
    statusWord (execOf (.seqPush 0 1) two) = 0x00000800 ∧ (execOf (.seqPush 0 1) two).errInfo = 0x00000104 := by decide

/-- Q10: no effect without a sequence. -/
theorem test_seqEnd_without_sequence : statusWord (execOf (.seqEnd 0 0) two) = 0 := by decide

/-- Q11: the reserved bits are checked before the sequence state. -/
theorem test_reserved_before_sequence_state :
    statusWord (execOf (.setPixel 1 0) twoOpen) = 0x00000201 ∧ (execOf (.setPixel 1 0) twoOpen).errInfo = 0x00010001 := by
  decide

/-- E1. -/
theorem test_illegalOp_zero : statusWord (execOf (.illegalOp 0) two) = 0x00000100 := by decide

/-- E3: only the bits written as 1 are cleared. -/
theorem test_regWrite_status :
    statusWord (execOf (.regWrite .status 0x00000100) { two with errBits := 0b00011 }) = 0x00000200 := by decide

/-- B1: the write of a read-only register. -/
theorem test_regWrite_geomW :
    (execOf (.regWrite .geomW 5) two).response = some { status := .error, data := none } ∧
    statusWord (execOf (.regWrite .geomW 5) two) = 0x00001000 ∧ (execOf (.regWrite .geomW 5) two).errInfo = 0x00000028 := by
  decide

/-- B12: CONFIG of G1 and G3. -/
theorem test_regRead_config :
    (execOf (.regRead .config) State.reset).response = okayData 0x00030001 ∧
    (execOf (.regRead .config) (State.resetWith cfgThree)).response = okayData 0x00010002 := by decide

/-- B11: CTRL reads its two bits back, and LOGICAL_W follows. -/
theorem test_regRead_ctrl :
    (execOf (.regRead .ctrl) (execOf (.regWrite .ctrl 0xFFFFFFFF) two)).response = okayData 3 ∧
    (execOf (.regRead .logicalW) (execOf (.regWrite .ctrl 0xFFFFFFFF) two)).response = okayData 4 := by decide

/-- B9: byte 1 of plane 1 stands at FB_BASE + 5 in G3. -/
theorem test_fbReadByte_second_plane :
    (execOf (.fbReadByte 0x00100005) { State.resetWith cfgThree with fb := [(0x00100005, 0x3C)] }).response
      = okayData 0x3C := by decide

/-- P1: the word at FB_BASE + 8 after the unaligned fill. -/
theorem test_fbReadWord_little_endian :
    (execOf (.fbReadWord 0x00100008) { State.reset with fb := [(0x00100008, 0xFF), (0x00100009, 0x03), (0x0010000A, 0xFF),
        (0x0010000B, 0xFF)] }).response = okayData 0xFFFF03FF := by decide

/-- B6: an aperture write is an error and changes no byte. -/
theorem test_fbWrite_error :
    (execOf (.fbWrite 0x00100000 .byte 0xFF) two).response = some { status := .error, data := none } ∧
    (execOf (.fbWrite 0x00100000 .byte 0xFF) two).fb = [] := by decide

/-- W5 to W7: the rotation formulas on a 10 × 20 source. -/
theorem test_rotatePoint_source :
    rotatePoint .cw90 10 20 1 1 = (18, 1) ∧ rotatePoint .cw180 10 20 1 1 = (8, 18) ∧
    rotatePoint .cw270 10 20 1 1 = (1, 8) := by decide

/-! ### Witnesses: for each statement with hypotheses, a state and operands that meet all of them, at the boundaries of its
clauses -/

/-- DecodeOfEncodeIsIdentity: a well-formed term of every constructor. -/
theorem witness_DecodeOfEncodeIsIdentity :
    cfgTwo.Legal ∧
    ∀ i ∈ [Instr.setPixel 0xFFFF 0xFF, .fillRect 0 1, .seqBegin 0 0, .seqPush 0 1, .seqEnd 0 0, .illegalOp 0,
      .illegalOp 0xFFFFFFFF, .regWrite .apertureStride 1, .regRead .cmd, .fbReadByte 0x00100007, .fbReadWord 0x00100004,
      .fbWrite 0x00100007 .half 0], i.WellFormed cfgTwo = true := by decide

/-- DecodedInstructionEncodesBack: a write, and a read whose unused data word is not 0. -/
theorem witness_DecodedInstructionEncodesBack :
    decode cfgTwo (writeAt 0x18 0x00000101) = .instr (.setPixel 0 1) ∧
    decode cfgTwo { readAt 0x00 .word with data := 7 } = .instr (.regRead .ctrl) := by decide

/-- LegalCommandWordsAreExactly: a state with no error, a word of the list and one just outside it. -/
theorem witness_LegalCommandWordsAreExactly :
    two.cfg.Legal ∧ two.errBits = 0 ∧
    statusBit (execOf (decodeCommand 0x00000101) two) 9 = false ∧
    statusBit (execOf (decodeCommand 0x00000201) two) 9 = true ∧
    statusBit (execOf (decodeCommand 0x00000006) two) 8 = true := by decide

/-- CommandChecksInOrder: a word for each clause, at the boundary of its range. -/
theorem witness_CommandChecksInOrder :
    two.cfg.Legal ∧ twoOpen.cfg.Legal ∧
    exec (decodeCommand 0x00000000) two = .next (raiseCmdError .illegalOp 0x00000000 two) ∧
    exec (decodeCommand 0xFFFFFF06) twoOpen = .next (raiseCmdError .illegalOp 0xFFFFFF06 twoOpen) ∧
    exec (decodeCommand 0x00010105) two = .next (raiseCmdError .reserved 0x00010105 two) ∧
    exec (decodeCommand 0x00000201) twoOpen = .next (raiseCmdError .reserved 0x00000201 twoOpen) ∧
    exec (decodeCommand 0x00000105) two = .next (raiseCmdError .reserved 0x00000105 two) ∧
    exec (decodeCommand 0x00000003) twoOpen = .next (raiseCmdError .seqOpen 0x00000003 twoOpen) ∧
    exec (decodeCommand 0x00000104) two = .next (raiseCmdError .noSeq 0x00000104 two) ∧
    (execOf (decodeCommand 0x00000101) two).errBits = 0 ∧ (execOf (decodeCommand 0x00000005) twoOpen).errBits = 0 :=
  ⟨by decide, by decide, rfl, rfl, rfl, rfl, rfl, rfl, rfl, by decide, by decide⟩

/-- ErrorResponseExactlyOnBusErrors: bus errors of every clause of IsBusError at its boundary, and their neighbours that
are none, under G1 (24 bytes of a 32-byte stride). -/
theorem witness_ErrorResponseExactlyOnBusErrors :
    Config.reference.Legal ∧
    (∀ tx ∈ [readAt 0x40 .half, readAt 0x3E .word, readAt 0x44 .word, readAt 0x0FFC .word, writeAt 0x1C 0, writeAt 0x40 0,
        writeAt 0x00100000 0, writeAt 0x0010001F 0, readAt 0x00100000 .half, readAt 0x00100012 .word,
        readAt 0x00100018 .byte, readAt 0x00100018 .word, readAt 0x1000 .word, readAt 0x000FFFFC .word,
        readAt 0x00100020 .byte],
      IsBusError State.reset.cfg tx ∧ (asked State.reset tx).pending = .transact tx :: []) ∧
    (∀ tx ∈ [readAt 0x00 .word, readAt 0x40 .word, writeAt 0x18 0, writeAt 0x14 0, readAt 0x00100000 .byte,
        readAt 0x00100017 .byte, readAt 0x00100014 .word],
      ¬IsBusError State.reset.cfg tx) := by decide

/-- ErrorBitsAreSticky: the bit stays, is cleared by a reset, and is cleared by a write of STATUS. -/
theorem witness_ErrorBitsAreSticky :
    let s : State := { two with errBits := 0b10001 }
    let cleared := stepOf (asked s (writeAt 0x04 0x00000100))
    (step (asked s (writeAt 0x04 0x00000100)) = .next cleared ∧ statusBit s 8 = true ∧ statusBit cleared 8 = false ∧
      statusBit s 12 = true ∧ statusBit cleared 12 = true) ∧
    (step { s with pending := [.reset] } = .next two ∧ statusBit two 12 = false) :=
  ⟨⟨rfl, by decide, by decide, by decide, by decide⟩, rfl, by decide⟩

/-- AtMostOneErrorRaised: a step that sets an error bit that was clear. -/
theorem witness_AtMostOneErrorRaised :
    step (asked two (writeAt 0x18 0)) = .next (stepOf (asked two (writeAt 0x18 0))) ∧
    statusBit (asked two (writeAt 0x18 0)) 8 = false ∧ statusBit (stepOf (asked two (writeAt 0x18 0))) 8 = true :=
  ⟨rfl, by decide, by decide⟩

/-- ErrInfoHoldsLatestError: a reset, a bus error, a discarded command (the first illegal OP above the assigned ones), and
two transactions that are neither: a command that runs and the write of STATUS that clears an error. -/
theorem witness_ErrInfoHoldsLatestError :
    let s : State := { two with errInfo := 7, errBits := 0b00001 }
    (step { s with pending := [.reset] } = .next two) ∧
    (step (asked s (readAt 0x44 .word)) = .next (stepOf (asked s (readAt 0x44 .word))) ∧
      IsBusError s.cfg (readAt 0x44 .word)) ∧
    (step (asked s (writeAt 0x18 6)) = .next (stepOf (asked s (writeAt 0x18 6))) ∧ CommandIsDiscarded s 6) ∧
    (step (asked s (writeAt 0x18 5)) = .next (stepOf (asked s (writeAt 0x18 5))) ∧ ¬CommandIsDiscarded s 5 ∧
      ¬IsBusError s.cfg (writeAt 0x18 5)) ∧
    (step (asked s (writeAt 0x04 0x100)) = .next (stepOf (asked s (writeAt 0x04 0x100))) ∧
      ¬IsWordWrite (writeAt 0x04 0x100) 0x18 ∧ ¬IsBusError s.cfg (writeAt 0x04 0x100) ∧
      (stepOf (asked s (writeAt 0x04 0x100))).errInfo = 7) :=
  ⟨rfl, ⟨rfl, by decide⟩, ⟨rfl, by decide⟩, ⟨rfl, by decide, by decide⟩, rfl, by decide, by decide, by decide⟩

/-- CommandIsDiscarded: one word for each of its clauses, and one neighbour that is not discarded. -/
theorem test_commandIsDiscarded :
    CommandIsDiscarded two 0 ∧ CommandIsDiscarded two 0x00010005 ∧ CommandIsDiscarded two 0x00000201 ∧
    CommandIsDiscarded two 0x00000103 ∧ CommandIsDiscarded twoOpen 0x00000003 ∧ CommandIsDiscarded two 0x00000104 ∧
    ¬CommandIsDiscarded two 0x00000101 ∧ ¬CommandIsDiscarded twoOpen 0x00000104 :=
  ⟨by decide, by decide, by decide, by decide, by decide, by decide, by decide, by decide⟩

/-- IllegalOpIsDiscarded, and every statement whose only hypothesis is a legal configuration (IllegalOpIsDiscarded,
SeqEndCloses, StatusReadsAndClearsByOnes, CtrlWriteSetsRotation, OperandRegisterWritesStore,
EveryActionIsAnswered, ResetValuesHold, ResetStateIsGood). -/
theorem witness_legal_configuration :
    two.cfg.Legal ∧ (State.resetWith cfgThree).cfg.Legal ∧ { cfgTwo with bitOrder := .lsbFirst }.Legal ∧
    (Config.withDefaults 65528 65535 1).Legal := by decide

/-- StoreLayoutIsBijective: the last pixel, and the last bit of the last byte of the last plane. -/
theorem witness_StoreLayoutIsBijective :
    cfgThree.Legal ∧ InStore cfgThree 1 7 1 ∧ byteIndex cfgThree 7 1 = 1 ∧ bitPos cfgThree 7 = 0 ∧
    1 < cfgThree.bufBytes ∧ storeGood cfgThree [(0x00100005, 0x3C)] = true := by decide

/-- RotationIsBijectiveOnBounds: the first logical point outside the bounds of rotation 90°. -/
theorem witness_RotationIsBijectiveOnBounds : ¬InLogical cfgTwo .cw90 4 0 ∧ InLogical cfgTwo .cw90 3 15 := by decide

/-- RotatedRectIsImageOfArea: a pixel of the rotated area (F13), and one outside it. -/
theorem witness_RotatedRectIsImageOfArea :
    cfgTwo.Legal ∧ storeGood cfgTwo [] = true ∧ InStore cfgTwo 0 13 1 ∧
    AreaHas { x := 0, y := 0, w := 2, h := 3 } 1 2 ∧ rot cfgTwo .cw90 1 2 = (13, 1) ∧
    InStore cfgTwo 0 12 1 ∧ ¬AreaHas (rotRect cfgTwo .cw90 { x := 0, y := 0, w := 2, h := 3 }) 12 1 := by decide

/-- ClipIsIntersection: an area that clips to a box (F6) and one that is EMPTY (F8). -/
theorem witness_ClipIsIntersection :
    clip cfgTwo { x := -3, y := -1, w := 6, h := 2 } = some { x0 := 0, x1 := 3, y0 := 0, y1 := 1 } ∧
    clip cfgTwo { x := 16, y := 0, w := 5, h := 5 } = none := by decide

/-- DatapathFitsThirtyFiveBits: the largest sequence, from the largest corner; SET_PIXEL's point, and the sequence's last
position of its first row. -/
theorem witness_DatapathFitsThirtyFiveBits :
    let q : Sequence := { x0 := 2 ^ 31 - 1, y0 := 2 ^ 31 - 1, w := 2 ^ 32 - 1, h := 2 ^ 32 - 1, rot := .cw90, idx := 0 }
    let s : State := { two with seq := some q }
    s.cfg.Legal ∧ seqInRange s.seq = true ∧ PointToRotate s 0 0 ∧
    PointToRotate s (2 ^ 31 - 1 + (2 ^ 32 - 2)) (2 ^ 31 - 1) :=
  ⟨by decide, by decide, .inl ⟨by decide, by decide⟩, .inr ⟨_, 2 ^ 32 - 2, rfl, by decide, by decide, by decide⟩⟩

/-- RowTiersGiveSameStore: a run to the end of the row, and a row with leading bits, run and trailing bits (F12). -/
theorem witness_RowTiersGiveSameStore :
    Config.reference.Legal ∧ storeGood Config.reference [] = true ∧ 0 < Config.reference.nPlanes ∧
    7 < Config.reference.fbH ∧ 8 < 24 ∧ 24 ≤ Config.reference.fbW ∧ 8 % 8 = 0 ∧ 24 % 8 = 0 ∧ 3 < 21 ∧
    21 ≤ Config.reference.fbW := by decide

/-- SetPixelWritesOneLogicalPixel and FillRectFillsClippedArea: a good state with no sequence, the highest colour; the point
in bounds and out of bounds. -/
theorem witness_drawing_state :
    Good (withArea (State.resetWith cfgThree) 7 1 1 1) ∧ (withArea (State.resetWith cfgThree) 7 1 1 1).seq = none ∧
    ColorFits cfgThree 3 ∧ InStore cfgThree 1 7 1 ∧ rot cfgThree .none 7 1 = (7, 1) ∧
    Good (withArea (State.resetWith cfgThree) 8 1 1 1) ∧ ¬InB cfgThree 8 1 := by decide

/-- FillRectFillsClippedArea: a pixel in the filled set and one outside it, for that state. -/
theorem witness_FillRectFillsClippedArea :
    InFilled cfgThree .none { x := 7, y := 1, w := 1, h := 1 } 7 1 ∧
    ¬InFilled cfgThree .none { x := 7, y := 1, w := 1, h := 1 } 6 1 := by
  refine ⟨⟨7, 1, by decide, by decide⟩, ?_⟩
  rintro ⟨qx, qy, h, hr⟩
  have h6 : qx = 6 := congrArg Prod.fst hr
  have h7 : (7 : Int) ≤ qx := h.1
  omega

/-- FullFillGivesUniformBytes: the full logical bounds of rotation 90° (F17). -/
theorem witness_FullFillGivesUniformBytes :
    let s : State := { withArea two 0 0 4 16 with rot := .cw90 }
    Good s ∧ s.seq = none ∧ ColorFits s.cfg 1 ∧ s.posX = 0 ∧ s.posY = 0 ∧ s.extW.toNat = (outerBounds s.cfg s.rot).1 ∧
      s.extH.toNat = (outerBounds s.cfg s.rot).2 := by decide

/-- SetPixelIsReadBack: S10, colour 1. -/
theorem witness_SetPixelIsReadBack :
    let s : State := { withArea two 3 15 0 0 with rot := .cw90 }
    Good s ∧ s.seq = none ∧ ColorFits s.cfg 1 ∧ InStore s.cfg 0 0 3 ∧
      rot s.cfg s.rot (sint s.posX) (sint s.posY) = (0, 3) := by decide

/-- SeqBeginLatchesArea: an empty area and one that is not. -/
theorem witness_SeqBeginLatchesArea :
    two.cfg.Legal ∧ two.seq = none ∧ ((withArea two 0 0 0 5).extW = 0 ∨ (withArea two 0 0 0 5).extH = 0) ∧
    ¬((withArea two 0 0 1 1).extW = 0 ∨ (withArea two 0 0 1 1).extH = 0) := by decide

/-- SeqPushWritesNextPosition: the first and the last position of a sequence. -/
theorem witness_SeqPushWritesNextPosition :
    Good twoOpen ∧ twoOpen.seq = some twoPositions ∧ ColorFits cfgTwo 1 ∧ rot cfgTwo .none 0 0 = (0, 0) ∧
    Good { two with seq := some { twoPositions with idx := 1 } } ∧ rot cfgTwo .none (0 + (1 % 2 : Nat)) 0 = (1, 0) := by
  decide

/-- OpenSequenceKeepsLatchedValues: a change by SEQ_PUSH, by SEQ_END and by a reset. -/
theorem witness_OpenSequenceKeepsLatchedValues :
    twoOpen.seq = some twoPositions ∧
    (step (asked twoOpen (writeAt 0x18 4)) = .next (stepOf (asked twoOpen (writeAt 0x18 4))) ∧
      (stepOf (asked twoOpen (writeAt 0x18 4))).seq = some { twoPositions with idx := 1 }) ∧
    (step (asked twoOpen (writeAt 0x18 5)) = .next (stepOf (asked twoOpen (writeAt 0x18 5))) ∧
      (stepOf (asked twoOpen (writeAt 0x18 5))).seq = none) ∧
    (step { twoOpen with pending := [.reset] } = .next two ∧ two.seq ≠ some twoPositions) :=
  ⟨rfl, ⟨rfl, by decide⟩, ⟨rfl, by decide⟩, rfl, by decide⟩

/-- SequenceRunIsFillFromSequence: fewer colours than positions, and more; a colour in bounds, a pixel no
position reaches and a byte no position stores to. -/
theorem witness_SequenceRunIsFillFromSequence :
    let s := withArea two 0 0 2 1
    Good s ∧ s.seq = none ∧ s.extW ≠ 0 ∧ s.extH ≠ 0 ∧ (∀ color ∈ [(1 : Byte), 0, 1], ColorFits s.cfg color) ∧
    min [(1 : Byte), 0, 1].length (s.extW.toNat * s.extH.toNat) = 2 ∧
    min [(1 : Byte)].length (s.extW.toNat * s.extH.toNat) = 1 ∧ InStore s.cfg 0 1 0 ∧
    rot s.cfg s.rot (s.posX.toInt + (1 % 2 : Nat)) (s.posY.toInt + (1 / 2 : Nat)) = (1, 0) ∧
    (∀ i < 2, rot s.cfg s.rot (s.posX.toInt + (i % 2 : Nat)) (s.posY.toInt + (i / 2 : Nat)) ≠ (2, 0)) ∧
    (∀ i < 2, ¬PlotStoresTo s.cfg (rot s.cfg s.rot (s.posX.toInt + (i % 2 : Nat)) (s.posY.toInt + (i / 2 : Nat))) 0) := by
  decide

/-- ConstantRegistersRead: each register of its list, under G3. -/
theorem witness_ConstantRegistersRead :
    cfgThree.Legal ∧ cfgThree.fbW = 8 ∧ cfgThree.fbH = 2 ∧ cfgThree.nPlanes + 0 + cfgThree.rowBytes * 65536 = 0x00010002 ∧
    cfgThree.fbBase = 0x00100000 ∧ cfgThree.planeStride = 4 := by decide

/-- LogicalSizeFollowsRotation: both sizes. -/
theorem witness_LogicalSizeFollowsRotation :
    two.cfg.Legal ∧ (two.rot = .none ∨ two.rot = .cw180) ∧
    ¬({ two with rot := .cw270 }.rot = .none ∨ { two with rot := .cw270 }.rot = .cw180) := by decide

/-- StoredRegistersRead: every register of its list. -/
theorem witness_StoredRegistersRead :
    two.cfg.Legal ∧
    ∀ p ∈ [(Reg.posX, two.posX), (Reg.posY, two.posY), (Reg.extW, two.extW), (Reg.extH, two.extH),
      (Reg.errInfo, two.errInfo), (Reg.cmd, 0), (Reg.ctrl, 0)], (execOf (.regRead p.1) two).response = okayData p.2 := by
  decide

/-- SeqRemainReadsRemaining: no sequence, one position left, and the greatest number of positions. -/
theorem witness_SeqRemainReadsRemaining :
    two.cfg.Legal ∧ seqInRange two.seq = true ∧
    seqInRange (some { twoPositions with idx := 1 }) = true ∧
    seqInRange (some { twoPositions with w := 2 ^ 32 - 1, h := 2 ^ 32 - 1 }) = true := by decide

/-- ReadOnlyWritesAreBusErrors: the first and the last register of its list. -/
theorem witness_ReadOnlyWritesAreBusErrors :
    two.cfg.Legal ∧ (execOf (.regWrite .errInfo 0) two).errInfo = 0x1C ∧
    (execOf (.regWrite .apertureStride 0) two).errInfo = 0x40 := by decide

/-- CmdWritePerformsCommand and StepRunsDecodedInstruction: a command waiting on the port. -/
theorem witness_command_on_port :
    two.cfg.Legal ∧ (asked two (writeAt 0x18 0x00000101)).pending = [.transact (writeAt 0x18 0x00000101)] ∧
    decode two.cfg (writeAt 0x18 0x00000101) = .instr (.setPixel 0 1) := by decide

/-- ApertureByteRead and ApertureWordReadIsLittleEndian: the first and the last byte, and the last word. -/
theorem witness_aperture_reads :
    cfgTwo.Legal ∧ 0 < cfgTwo.nPlanes ∧ 0 < cfgTwo.bufBytes ∧ 7 < cfgTwo.bufBytes ∧ 4 + 4 ≤ cfgTwo.bufBytes ∧ 4 % 4 = 0 := by
  decide

/-- ApertureWriteIsBusError: the first and the last offset of the aperture of G1, the last one in the padding. -/
theorem witness_ApertureWriteIsBusError :
    Config.reference.Legal ∧
    Config.reference.fbBase ≤ (0x00100000 : Word).toNat ∧ (0x00100000 : Word).toNat < Config.reference.apertureEnd ∧
    Config.reference.fbBase ≤ (0x0010001F : Word).toNat ∧ (0x0010001F : Word).toNat < Config.reference.apertureEnd ∧
    ¬(0x00100020 : Word).toNat < Config.reference.apertureEnd := by decide

/-- IllegalConfigurationIsRefused: a width that is no multiple of 8. -/
theorem witness_IllegalConfigurationIsRefused : ¬(State.resetWith { cfgTwo with fbW := 20 }).cfg.Legal := by decide

/-- EveryActionIsAnswered: nothing, a reset and a bus error on the port. -/
theorem witness_EveryActionIsAnswered :
    two.cfg.Legal ∧ two.pending = [] ∧ { two with pending := [.reset] }.pending = .reset :: [] ∧
    (asked two (readAt 0x44 .word)).pending = [.transact (readAt 0x44 .word)] := by decide

/-- HostResetGivesResetState: a reset with an open sequence and another action behind it. -/
theorem witness_HostResetGivesResetState :
    let s : State := { twoOpen with pending := [.reset, .transact (readAt 0x00 .word)] }
    s.cfg.Legal ∧ s.pending = .reset :: [.transact (readAt 0x00 .word)] := by decide

/-- StepKeepsGood: a good state with a sequence open, and the push it steps over. -/
theorem witness_StepKeepsGood :
    Good (asked twoOpen (writeAt 0x18 0x00000104)) ∧
    step (asked twoOpen (writeAt 0x18 0x00000104)) = .next (stepOf (asked twoOpen (writeAt 0x18 0x00000104))) :=
  ⟨by decide, rfl⟩

/-- StoreChangesOnlyByDrawing: a change by a command, and by a reset. -/
theorem witness_StoreChangesOnlyByDrawing :
    (step (asked two (writeAt 0x18 0x00000101)) = .next (stepOf (asked two (writeAt 0x18 0x00000101))) ∧
      (stepOf (asked two (writeAt 0x18 0x00000101))).fb ≠ two.fb) ∧
    (step { two with fb := [(0x00100000, 1)], pending := [.reset] } = .next two ∧ two.fb ≠ [(0x00100000, 1)]) :=
  ⟨⟨rfl, by decide⟩, rfl, by decide⟩

/-- OperandRegistersChangeOnlyByHost: a write of each register. -/
theorem witness_OperandRegistersChangeOnlyByHost :
    (stepOf (asked two (writeAt 0x00 1))).rot ≠ two.rot ∧ (stepOf (asked two (writeAt 0x08 1))).posX ≠ two.posX ∧
    (stepOf (asked two (writeAt 0x0C 1))).posY ≠ two.posY ∧ (stepOf (asked two (writeAt 0x10 1))).extW ≠ two.extW ∧
    (stepOf (asked two (writeAt 0x14 1))).extH ≠ two.extH ∧
    step (asked two (writeAt 0x00 1)) = .next (stepOf (asked two (writeAt 0x00 1))) :=
  ⟨by decide, by decide, by decide, by decide, by decide, rfl⟩

/-- ClearZeroesTheStore: a good state with pixels set, under rotation 270°. -/
theorem witness_ClearZeroesTheStore :
    let s : State := { two with rot := .cw270, fb := [(0x00100000, 0x81)] }
    Good s ∧ s.seq = none ∧ fbRead s.cfg 0 0 s.fb = 0x81 := by decide

end Sys2Proof.Tests
end

section
/-! What refuses a configuration outside R5 (00_scope.md R6), and what keeps a state good (10_state.md R33, R34). -/

namespace Sys2Proof.Machine

/-! ### A configuration that defines no machine -/

theorem performCommand_illegal {s : State} (h : ¬s.cfg.Legal) (w : Word) :
    performCommand w s = .refused .illegalConfiguration := by
  unfold performCommand
  cases opcodeOf (opField w) with
  | none => exact perform_illegal h _
  | some op => cases op <;> exact runCommand_illegal h _ _ _ _

theorem execRegWrite_illegal {s : State} (h : ¬s.cfg.Legal) (r : Reg) (v : Word) :
    execRegWrite r v s = .refused .illegalConfiguration := by
  cases r with
  | cmd => exact performCommand_illegal h v
  | _ => exact perform_illegal h _

/-- Every meaning ends in `perform`, whose refusal comes before anything else it could answer. -/
theorem exec_illegal {s : State} (h : ¬s.cfg.Legal) (i : Instr) : exec i s = .refused .illegalConfiguration := by
  cases i with
  | setPixel | fillRect | seqBegin | seqPush => exact runCommand_illegal h _ _ _ _
  | seqEnd => exact runCommand_illegal h _ _ none _
  | regWrite r v => exact execRegWrite_illegal h r v
  | illegalOp | regRead | fbReadByte | fbReadWord | fbWrite => exact perform_illegal h _

theorem step_illegal {s : State} (h : ¬s.cfg.Legal) : step s = .refused .illegalConfiguration := if_neg h

/-- Settles O42, from the refusal of each meaning and of the step. -/
theorem illegalConfigurationIsRefused : Obligations.IllegalConfigurationIsRefused :=
  fun _ i h => ⟨exec_illegal h i, step_illegal h⟩

/-! ### The parts of a good state -/

/-- A good state is good by its configuration, its store and its sequence alone. -/
theorem good_of_frame {s t : State} (hg : Good s) (hcfg : t.cfg = s.cfg) (hfb : t.fb = s.fb) (hseq : t.seq = s.seq) :
    Good t := by
  rw [Good, hcfg, hfb, hseq]
  exact hg

theorem storeGood_logicalPlot {c : Config} (hc : c.Legal) {m : Memory} (hm : storeGood c m = true) (r : Rotation)
    (qx qy : Int) (color : Byte) : storeGood c (logicalPlot c r qx qy color m) = true :=
  (paints_logicalPlot hc r qx qy color m hm).1

theorem storeGood_fillArea {c : Config} (hc : c.Legal) {m : Memory} (hm : storeGood c m = true) (r : Rotation)
    (a : Area) (color : Byte) : storeGood c (fillArea c r a color m) = true :=
  (paints_fillArea hc r a color m hm).1

@[simp] theorem seqInRange_none : seqInRange none = true := rfl

@[simp] theorem seqInRange_some {q : Sequence} : seqInRange (some q) = true ↔ SequenceInRange q := decide_eq_true_iff

/-- `sint` of a register is in R33's range of x0 and y0. -/
theorem sint_range (w : Word) : -2 ^ 31 ≤ sint w ∧ sint w < 2 ^ 31 := ⟨BitVec.le_toInt w, BitVec.toInt_lt⟩

/-- What SEQ_BEGIN latches is in R33's ranges: the area has a position, so the cursor 0 is below w * h (R141, R142). -/
theorem seqInRange_seqBeginEffect {s : State} (h : seqInRange s.seq = true) :
    seqInRange (seqBeginEffect s).seq = true := by
  unfold seqBeginEffect
  split_ifs with hempty
  · exact h
  · have hw : 0 < uint s.extW := by omega
    have hh : 0 < uint s.extH := by omega
    obtain ⟨hx, hx'⟩ := sint_range s.posX
    obtain ⟨hy, hy'⟩ := sint_range s.posY
    exact seqInRange_some.2 ⟨hx, hx', hy, hy', hw, s.extW.isLt, hh, s.extH.isLt, Nat.mul_pos hw hh⟩

/-- A cursor below w * h is closed at w * h and otherwise stays below it (R144). -/
theorem seqInRange_seqAdvance {q : Sequence} (h : SequenceInRange q) : seqInRange (seqAdvance q) = true := by
  obtain ⟨hx, hx', hy, hy', hw, hw', hh, hh', hidx⟩ := h
  unfold seqAdvance
  split_ifs with hlast
  · rfl
  · exact seqInRange_some.2 ⟨hx, hx', hy, hy', hw, hw', hh, hh', Nat.lt_of_le_of_ne hidx hlast⟩

/-! ### What every action of the host keeps -/

theorem good_hostReset {s : State} (h : s.cfg.Legal) : Good (hostReset s) := ⟨h, storeGood_nil s.cfg, seqInRange_none⟩

theorem good_okayWrite {s : State} (h : Good s) : Good (okayWrite s) := h

theorem good_setPixelEffect {s : State} (h : Good s) (color : Byte) : Good (setPixelEffect color s) := by
  obtain ⟨hc, hfb, hseq⟩ := h
  exact ⟨hc, storeGood_logicalPlot hc hfb _ _ _ _, hseq⟩

theorem good_fillRectEffect {s : State} (h : Good s) (color : Byte) : Good (fillRectEffect color s) := by
  obtain ⟨hc, hfb, hseq⟩ := h
  exact ⟨hc, storeGood_fillArea hc hfb _ _ _, hseq⟩

theorem good_seqBeginEffect {s : State} (h : Good s) : Good (seqBeginEffect s) := by
  obtain ⟨hc, hfb, hseq⟩ := h
  refine ⟨?_, ?_, seqInRange_seqBeginEffect hseq⟩
  · rwa [seqBeginEffect_cfg]
  · rwa [seqBeginEffect_cfg, seqBeginEffect_fb]

theorem good_seqPushEffect {s : State} (h : Good s) (color : Byte) : Good (seqPushEffect color s) := by
  obtain ⟨hc, hfb, hseq⟩ := h
  unfold seqPushEffect
  split
  next => exact ⟨hc, hfb, hseq⟩
  next q hq =>
    rw [hq, seqInRange_some] at hseq
    exact ⟨hc, storeGood_logicalPlot hc hfb _ _ _ _, seqInRange_seqAdvance hseq⟩

theorem good_seqEndEffect {s : State} (h : Good s) : Good (seqEndEffect s) := by
  obtain ⟨hc, hfb, -⟩ := h
  exact ⟨hc, hfb, seqInRange_none⟩

/-- A command word keeps a good state good, by each of its effects or discarded. -/
theorem command_keeps_good {w : Word} {s t : State} (hg : Good s) (h : exec (decodeCommand w) s = .next t) : Good t := by
  obtain ⟨-, ⟨e, -, rfl⟩ | ⟨-, -, rfl⟩ | ⟨-, -, rfl⟩ | ⟨-, -, rfl⟩ | ⟨-, -, rfl⟩ | ⟨-, rfl⟩⟩ := command_cases h
  · exact good_of_frame hg rfl rfl rfl
  · exact good_okayWrite (good_setPixelEffect hg _)
  · exact good_okayWrite (good_fillRectEffect hg _)
  · exact good_okayWrite (good_seqBeginEffect hg)
  · exact good_okayWrite (good_seqPushEffect hg _)
  · exact good_okayWrite (good_seqEndEffect hg)

/-- A register write other than CMD's touches no part of a good state. -/
theorem regWrite_keeps_good {r : Reg} {v : Word} {s t : State} (hr : r ≠ .cmd) (hg : Good s)
    (h : exec (.regWrite r v) s = .next t) : Good t := by
  obtain ⟨hseq, hfb, hcfg, -⟩ := regWrite_frame hr h
  exact good_of_frame hg hcfg hfb hseq

/-- Taking an action off the port touches no part of a good state. -/
theorem good_takePending {s : State} (h : Good s) (rest : List HostAction) : Good { s with pending := rest } := h

/-- Settles O47, by what the step's action is: none, a reset, a command word, a register write, or an access. -/
theorem stepKeepsGood : Obligations.StepKeepsGood := by
  intro s t hg hstep
  cases hp : s.pending with
  | nil =>
    rw [step_idle hg.1 hp] at hstep
    cases hstep
    exact hg
  | cons act rest =>
    have hg' := good_takePending hg rest
    obtain ⟨hl, ⟨-, rfl⟩ | ⟨tx, -, ⟨-, hcmd⟩ | ⟨r, hr, -, hreg⟩ | haccess⟩⟩ := step_action_cases hp hstep
    · exact good_hostReset hl
    · exact command_keeps_good hg' hcmd
    · exact regWrite_keeps_good hr hg' hreg
    · rw [haccess]
      exact hg

end Sys2Proof.Machine
end

section
/-! What the rules of 10_state.md are settled from: what a register reads and what its write leaves, which transactions are
bus errors (20_memory.md R57, R59, R61), and which command words are discarded (60_exceptions.md R164). -/

namespace Sys2Proof.Machine

/-! ### Register values -/

/-- REG_READ answers the register's value with OKAY and changes nothing else (R57). -/
theorem exec_regRead {s : State} (hl : s.cfg.Legal) (r : Reg) :
    exec (.regRead r) s = .next { s with response := okayData (regValue s r) } := perform_legal hl _

/-- The logical size is (FB_W, FB_H) for ROT 0 and 2, and (FB_H, FB_W) for ROT 1 and 3 (R104). -/
theorem outerBounds_eq_ite (c : Config) (r : Rotation) :
    outerBounds c r = if r = .none ∨ r = .cw180 then (c.fbW, c.fbH) else (c.fbH, c.fbW) := by
  cases r <;> rfl

theorem legal_fbW_lt {c : Config} (h : c.Legal) : c.fbW < 2 ^ 16 := by
  have := legal_iff.1 h; omega

theorem legal_fbH_lt {c : Config} (h : c.Legal) : c.fbH < 2 ^ 16 := by
  have := legal_iff.1 h; omega

theorem outerBounds_lt {c : Config} (h : c.Legal) (r : Rotation) :
    (outerBounds c r).1 < 2 ^ 16 ∧ (outerBounds c r).2 < 2 ^ 16 := by
  have hw := legal_fbW_lt h
  have hh := legal_fbH_lt h
  rw [outerBounds_eq_ite]
  split_ifs
  · exact ⟨hw, hh⟩
  · exact ⟨hh, hw⟩

/-- The aperture of a legal configuration holds one whole plane below 2^32, so its base and its stride are words (R5). -/
theorem legal_base_add_stride_le {c : Config} (h : c.Legal) : c.fbBase + c.planeStride ≤ 2 ^ 32 := by
  obtain ⟨-, -, -, -, -, hplanes, -, -, -, -, -, -, hend⟩ := legal_iff.1 h
  calc c.fbBase + c.planeStride = c.fbBase + 1 * c.planeStride := by rw [Nat.one_mul]
    _ ≤ c.apertureEnd := Nat.add_le_add_left (Nat.mul_le_mul_right _ hplanes) _
    _ ≤ 2 ^ 32 := hend

theorem legal_fbBase_lt {c : Config} (h : c.Legal) : c.fbBase < 2 ^ 32 := by
  have := legal_base_add_stride_le h
  have := legal_stride h
  have := legal_buf_pos h
  omega

theorem legal_planeStride_lt {c : Config} (h : c.Legal) : c.planeStride < 2 ^ 32 := by
  have := legal_base_add_stride_le h
  have := legal_iff.1 h
  omega

theorem toNat_bitOrderBit (o : BitOrder) : (bitOrderBit o).toNat = if o = .lsbFirst then 1 else 0 := by
  cases o <;> rfl

/-- CONFIG as a number: NPLANES, BIT_ORDER in bit 8, and ROW_BYTES in bits 31:16 (R32). -/
theorem toNat_configWord {c : Config} (h : c.Legal) :
    (configWord c).toNat = c.nPlanes + (if c.bitOrder = .lsbFirst then 256 else 0) + c.rowBytes * 65536 := by
  have hrow := legal_row h
  have hwidth := legal_fbW_lt h
  obtain ⟨-, -, -, -, -, -, hplanes, -⟩ := legal_iff.1 h
  have fields : (configWord c).toNat =
      ((c.rowBytes % 2 ^ 16 * 2 ^ 7 + 0) * 2 ^ 1 + (bitOrderBit c.bitOrder).toNat) * 2 ^ 8 + c.nPlanes % 2 ^ 8 := by
    simp only [configWord, append_toNat, BitVec.toNat_ofNat, Nat.zero_mod]
  rw [fields, toNat_bitOrderBit, Nat.mod_eq_of_lt (by omega : c.rowBytes < 2 ^ 16),
    Nat.mod_eq_of_lt (by omega : c.nPlanes < 2 ^ 8)]
  split_ifs <;> omega

theorem toNat_word_ofNat {n : Nat} (h : n < 2 ^ 32) : (BitVec.ofNat 32 n).toNat = n := by
  rw [BitVec.toNat_ofNat, Nat.mod_eq_of_lt h]

theorem toNat_regValue_geomW {s : State} (h : s.cfg.Legal) : (regValue s .geomW).toNat = s.cfg.fbW :=
  toNat_word_ofNat (by have := legal_fbW_lt h; omega)

theorem toNat_regValue_geomH {s : State} (h : s.cfg.Legal) : (regValue s .geomH).toNat = s.cfg.fbH :=
  toNat_word_ofNat (by have := legal_fbH_lt h; omega)

theorem toNat_regValue_logicalW {s : State} (h : s.cfg.Legal) :
    (regValue s .logicalW).toNat = (outerBounds s.cfg s.rot).1 :=
  toNat_word_ofNat (by have := outerBounds_lt h s.rot; omega)

theorem toNat_regValue_logicalH {s : State} (h : s.cfg.Legal) :
    (regValue s .logicalH).toNat = (outerBounds s.cfg s.rot).2 :=
  toNat_word_ofNat (by have := outerBounds_lt h s.rot; omega)

theorem toNat_regValue_apertureBase {s : State} (h : s.cfg.Legal) :
    (regValue s .apertureBase).toNat = s.cfg.fbBase :=
  toNat_word_ofNat (legal_fbBase_lt h)

theorem toNat_regValue_apertureStride {s : State} (h : s.cfg.Legal) :
    (regValue s .apertureStride).toNat = s.cfg.planeStride :=
  toNat_word_ofNat (legal_planeStride_lt h)

/-- CTRL reads back the two bits that selected the rotation (R23). -/
theorem rotationBits_rotationOf (b : BitVec 2) : rotationBits (rotationOf b) = b := by
  revert b; decide

/-- In an open sequence at least one position is left, and at most all (2^32 - 1)^2 of the greatest area (R29, R33). -/
theorem seqRemaining_some_range {q : Sequence} (h : SequenceInRange q) :
    1 ≤ seqRemaining (some q) ∧ seqRemaining (some q) ≤ (2 ^ 32 - 1) ^ 2 := by
  obtain ⟨-, -, -, -, -, hw, -, hh, hidx⟩ := h
  have harea : q.w * q.h ≤ (2 ^ 32 - 1) ^ 2 := by
    rw [Nat.pow_two]
    exact Nat.mul_le_mul (by omega) (by omega)
  rw [seqRemaining]
  exact ⟨Nat.sub_pos_of_lt hidx, (Nat.sub_le _ _).trans harea⟩

theorem seqRemaining_lt {q : Option Sequence} (h : seqInRange q = true) : seqRemaining q < 2 ^ 64 := by
  cases q with
  | none => decide
  | some q =>
    have := (seqRemaining_some_range (seqInRange_some.1 h)).2
    omega

/-- SEQ_REMAIN_LO and SEQ_REMAIN_HI are the two halves of rem (R29). -/
theorem seqRemain_halves {s : State} (h : seqInRange s.seq = true) :
    (regValue s .seqRemainLo).toNat + 2 ^ 32 * (regValue s .seqRemainHi).toNat = seqRemaining s.seq := by
  have := seqRemaining_lt h
  simp only [regValue, BitVec.toNat_ofNat]
  omega

/-! ### Which transactions are bus errors -/

theorem inAperture_iff {c : Config} {a : Nat} :
    inAperture c a = true ↔ c.fbBase ≤ a ∧ a < c.fbBase + c.nPlanes * c.planeStride := by
  rw [inAperture, Bool.and_eq_true, decide_eq_true_iff, decide_eq_true_iff, Config.apertureEnd]

/-- A transaction the decoder rejects is one of the bus errors of R57 and R59. -/
theorem isBusError_of_decode_busError {c : Config} {t : Transaction} {cause : BusErrorCause}
    (h : decode c t = .busError cause) : IsBusError c t := by
  unfold decode at h
  split_ifs at h with hreg hap
  · unfold decodeRegister at h
    split_ifs at h with hwidth halign
    · exact .inl ⟨hreg, .inl hwidth⟩
    · exact .inl ⟨hreg, .inr (.inl halign)⟩
    · split at h
      next hunmapped => exact .inl ⟨hreg, .inr (.inr (.inl ((regAt_eq_none (by omega)).1 hunmapped)))⟩
      next =>
        split at h
        · cases h
        · split_ifs at h
  · rw [inAperture_iff] at hap
    refine .inr (.inl ⟨hap.1, hap.2, ?_⟩)
    unfold decodeAperture at h
    split at h
    next => cases h
    next hhalf => exact .inr (.inl hhalf)
    next hbyte =>
      split_ifs at h with hoff
      exact .inr (.inr (.inr (by rw [hbyte]; exact Nat.lt_of_not_le hoff)))
    next hword =>
      rw [hword]
      split_ifs at h with halign hoff
      · exact .inr (.inr (.inl halign))
      · exact .inr (.inr (.inr (Nat.lt_of_not_le hoff)))
  · refine .inr (.inr ⟨by omega, fun hin => hap ?_⟩)
    exact inAperture_iff.2 hin

/-- Below the aperture only the register clause of `IsBusError` can hold (R5, R56). -/
theorem isBusError_register_iff {c : Config} (hc : c.Legal) {t : Transaction} {r : Reg} (hw : t.width = .word)
    (ha : t.addr.toNat = regOffset r) : IsBusError c t ↔ t.kind = .write ∧ 0x1C ≤ regOffset r := by
  have hr := regOffset_lt r
  have hbase : 0x1000 ≤ c.fbBase := by have := legal_iff.1 hc; omega
  constructor
  · rintro (⟨-, hwidth | halign | hunmapped | hro⟩ | ⟨hlow, -⟩ | ⟨hlow, -⟩)
    · exact absurd hw hwidth
    · omega
    · omega
    · rwa [ha] at hro
    · omega
    · omega
  · intro hro
    rw [← ha] at hro
    exact .inl ⟨by omega, .inr (.inr (.inr hro))⟩

/-- A read of the aperture that R59 allows is no bus error. -/
theorem not_isBusError_apertureRead {c : Config} {t : Transaction} (habove : ¬t.addr.toNat < 0x1000)
    (hk : t.kind = .read) (hw : t.width ≠ .half) (halign : t.addr.toNat % t.width.bytes = 0)
    (hap : inAperture c t.addr.toNat = true) (hoff : apertureOffset c t.addr.toNat + t.width.bytes ≤ c.bufBytes) :
    ¬IsBusError c t := by
  rw [inAperture_iff] at hap
  rintro (⟨hlow, -⟩ | ⟨-, -, hwrite | hhalf | hmis | hpad⟩ | ⟨-, hout⟩)
  · exact habove hlow
  · rw [hk] at hwrite; cases hwrite
  · exact hw hhalf
  · exact hmis halign
  · exact absurd hoff (Nat.not_le_of_lt hpad)
  · exact hout hap

/-- A write of the aperture is a bus error (R61). -/
theorem isBusError_apertureWrite {c : Config} {t : Transaction} (hk : t.kind = .write)
    (hap : inAperture c t.addr.toNat = true) : IsBusError c t := by
  rw [inAperture_iff] at hap
  exact .inr (.inl ⟨hap.1, hap.2, .inl hk⟩)

/-- A command written to CMD is never a bus error, whatever its word (R57, R162). -/
theorem not_isBusError_commandWrite {c : Config} (hc : c.Legal) {t : Transaction} (h : IsWordWrite t 0x18) :
    ¬IsBusError c t := by
  obtain ⟨-, hw, ha⟩ := h
  rw [isBusError_register_iff hc (r := .cmd) hw ha]
  exact fun hro => absurd hro.2 (by decide)

theorem regOffset_injective : Function.Injective regOffset := fun r r' h =>
  Option.some.inj (by rw [← regAt_regOffset r, h, regAt_regOffset])

/-- The register at offset 0x18 is CMD (R22). -/
theorem reg_eq_cmd_of_isWordWrite {t : Transaction} {r : Reg} (hr : IsWordWrite t (regOffset r))
    (hcmd : IsWordWrite t 0x18) : r = .cmd := by
  obtain ⟨-, -, ha⟩ := hr
  obtain ⟨-, -, ha'⟩ := hcmd
  exact regOffset_injective (ha.symm.trans ha')

/-- Only a machine that R5 allows answers a next state (R6). -/
theorem legal_of_exec {s t : State} {i : Instr} (h : exec i s = .next t) : s.cfg.Legal := by
  by_contra hl
  rw [exec_illegal hl] at h
  cases h

theorem step_instr {s : State} {tx : Transaction} {rest : List HostAction} {i : Instr} (h : s.cfg.Legal)
    (hp : s.pending = .transact tx :: rest) (hd : decode s.cfg tx = .instr i) :
    step s = exec i { s with pending := rest } := by
  unfold step; rw [if_pos h]; simp only [takeAction, hp, hd]

/-- Everything the instruction of a transaction can do: raise the bus error the transaction is (R165), or, when it is none,
perform a command word, write a register that takes writes, or answer a read with a value. -/
theorem exec_decoded_cases {s t : State} {tx : Transaction} {i : Instr} (hd : decode s.cfg tx = .instr i)
    (hexec : exec i s = .next t) :
    (IsBusError s.cfg tx ∧ t = raiseBusError tx.kind tx.addr s) ∨
    ¬IsBusError s.cfg tx ∧
      ((IsWordWrite tx 0x18 ∧ exec (decodeCommand tx.data) s = .next t) ∨
       (∃ r, r ≠ .cmd ∧ regOffset r < 0x1C ∧ IsWordWrite tx (regOffset r) ∧ exec (.regWrite r tx.data) s = .next t) ∨
       (tx.kind = .read ∧ ∃ v, t = okayRead v s)) := by
  have hl : s.cfg.Legal := legal_of_exec hexec
  rcases decode_instr_cases hd with ⟨hcmd, rfl⟩ | ⟨r, hr, hwrite, rfl⟩ | ⟨r, hk, hw, ha, rfl⟩ |
    ⟨habove, hk, hw, hap, hoff, rfl⟩ | ⟨habove, hk, hw, halign, hap, hoff, rfl⟩ | ⟨-, hk, hap, rfl⟩
  · exact .inr ⟨not_isBusError_commandWrite hl hcmd, .inl ⟨hcmd, hexec⟩⟩
  · have ⟨hk, hw, ha⟩ := hwrite
    have hiff := isBusError_register_iff hl hw ha
    by_cases hro : 0x1C ≤ regOffset r
    · rw [regWrite_readOnly hl hro, ← eq_regAddr ha] at hexec
      cases hexec
      exact .inl ⟨hiff.2 ⟨hk, hro⟩, by rw [hk]⟩
    · exact .inr ⟨fun h => hro (hiff.1 h).2, .inr (.inl ⟨r, hr, Nat.lt_of_not_le hro, hwrite, hexec⟩)⟩
  · have hno : ¬IsBusError s.cfg tx := by
      rw [isBusError_register_iff hl hw ha, hk]
      exact fun h => nomatch h.1
    obtain ⟨-, rfl⟩ := perform_next_iff.1 hexec
    exact .inr ⟨hno, .inr (.inr ⟨hk, _, rfl⟩)⟩
  · have hno : ¬IsBusError s.cfg tx := not_isBusError_apertureRead habove hk (by simp [hw])
      (by simp [hw, Width.bytes, Nat.mod_one]) hap (by rw [hw]; exact hoff)
    rw [fbReadByte_ok hl hap hoff] at hexec
    cases hexec
    exact .inr ⟨hno, .inr (.inr ⟨hk, _, rfl⟩)⟩
  · have hno : ¬IsBusError s.cfg tx := not_isBusError_apertureRead habove hk (by simp [hw])
      (by rw [hw]; exact halign) hap (by rw [hw]; exact hoff)
    rw [fbReadWord_ok hl halign hap hoff] at hexec
    cases hexec
    exact .inr ⟨hno, .inr (.inr ⟨hk, _, rfl⟩)⟩
  · obtain ⟨-, rfl⟩ := perform_next_iff.1 hexec
    exact .inl ⟨isBusError_apertureWrite hk hap, by rw [hk]⟩

/-- Everything a transaction's step can do, with the transaction taken off the port. -/
theorem step_transaction_cases {s t : State} {tx : Transaction} {rest : List HostAction}
    (hp : s.pending = .transact tx :: rest) (hst : step s = .next t) :
    (IsBusError s.cfg tx ∧ t = raiseBusError tx.kind tx.addr { s with pending := rest }) ∨
    ¬IsBusError s.cfg tx ∧
      ((IsWordWrite tx 0x18 ∧ exec (decodeCommand tx.data) { s with pending := rest } = .next t) ∨
       (∃ r, r ≠ .cmd ∧ regOffset r < 0x1C ∧ IsWordWrite tx (regOffset r) ∧
          exec (.regWrite r tx.data) { s with pending := rest } = .next t) ∨
       (tx.kind = .read ∧ ∃ v, t = okayRead v { s with pending := rest })) := by
  have hl : s.cfg.Legal := (step_cases hst).1
  cases hd : decode s.cfg tx with
  | busError cause =>
    rw [step_busError hl hp hd] at hst
    cases hst
    exact .inl ⟨isBusError_of_decode_busError hd, rfl⟩
  | instr i =>
    rw [step_instr hl hp hd] at hst
    exact exec_decoded_cases (s := { s with pending := rest }) hd hst

/-! ### Which command words are discarded -/

/-- R85's check for an opcode, on the fields of the word. -/
def opcodeReserved (c : Config) (w : Word) : Opcode → Bool
  | .setPixel | .fillRect | .seqPush => reservedColor c (rsvField w) (colorField w)
  | .seqBegin | .seqEnd => reservedNoColor (rsvField w) (colorField w)

/-- R164's third check for an opcode: what the sequence state forbids. -/
def opcodeStateError (s : State) : Opcode → Option ErrorBit
  | .setPixel | .fillRect | .seqBegin => requireNoSeq s
  | .seqPush => requireSeq s
  | .seqEnd => none

/-- The effect of a command word that passes R164's checks, by its opcode. -/
def opcodeEffect (w : Word) (s : State) : Opcode → State
  | .setPixel => setPixelEffect (colorField w) s
  | .fillRect => fillRectEffect (colorField w) s
  | .seqBegin => seqBeginEffect s
  | .seqPush => seqPushEffect (colorField w) s
  | .seqEnd => seqEndEffect s

/-- A command word with a legal OP runs its opcode's checks and effect, and latches itself when it is discarded. -/
theorem exec_decodeCommand_of_opcode {w : Word} {op : Opcode} (h : opcodeOf (opField w) = some op) (s : State) :
    exec (decodeCommand w) s =
      runCommand s w (opcodeReserved s.cfg w op) (opcodeStateError s op) (opcodeEffect w s op) := by
  have hw := commandWord_fields (opcodeByte_of_opcodeOf h)
  rw [← performCommand_eq_exec, performCommand, h]
  cases op with
  | setPixel => simp only [execSetPixel, hw]; rfl
  | fillRect => simp only [execFillRect, hw]; rfl
  | seqBegin => simp only [execSeqBegin, hw]; rfl
  | seqPush => simp only [execSeqPush, hw]; rfl
  | seqEnd => simp only [execSeqEnd, hw]; rfl

theorem exec_decodeCommand_of_illegal {w : Word} (h : opcodeOf (opField w) = none) (s : State) :
    exec (decodeCommand w) s = perform s (raiseCmdError .illegalOp w s) := by
  rw [← performCommand_eq_exec, performCommand, h]
  rfl

@[simp] theorem opcodeEffect_errInfo (w : Word) (s : State) (op : Opcode) : (opcodeEffect w s op).errInfo = s.errInfo := by
  cases op <;> simp [opcodeEffect]

/-- The checks on the sequence state raise command errors, never the bus error's bit. -/
theorem opcodeStateError_ne_access {s : State} {op : Opcode} {e : ErrorBit} (h : opcodeStateError s op = some e) :
    e ≠ .access := by
  cases op with
  | setPixel | fillRect | seqBegin => rw [(requireNoSeq_some h).1]; decide
  | seqPush => rw [(requireSeq_some h).1]; decide
  | seqEnd => cases h

theorem commandIsDiscarded_of_illegal {w : Word} (h : opcodeOf (opField w) = none) (s : State) :
    CommandIsDiscarded s w := by
  rw [opcodeOf_eq_none, opField_toNat] at h
  exact .inl (by omega)

/-- A word with a legal OP is discarded exactly when one of its opcode's checks fails. -/
theorem commandIsDiscarded_iff_of_opcode {s : State} (hl : s.cfg.Legal) {w : Word} {op : Opcode}
    (h : opcodeOf (opField w) = some op) :
    CommandIsDiscarded s w ↔ opcodeReserved s.cfg w op = true ∨ opcodeStateError s op ≠ none := by
  have hop : w.toNat % 256 = (opcodeByte op).toNat := by rw [← opcodeByte_of_opcodeOf h, opField_toNat]
  rw [CommandIsDiscarded, hop]
  cases op with
  | setPixel | fillRect | seqPush =>
    simp [opcodeByte, opcodeReserved, opcodeStateError, reservedColor_iff hl, rsvField_toNat, colorField_toNat, or_assoc]
  | seqBegin | seqEnd =>
    simp [opcodeByte, opcodeReserved, opcodeStateError, reservedNoColor_iff, rsvField_toNat, colorField_toNat, or_assoc]

/-- Everything a command word does: one that is discarded raises one command error and latches itself (R162), any other
has its opcode's effect. -/
theorem command_discarded_or_performed {w : Word} {s t : State} (h : exec (decodeCommand w) s = .next t) :
    (CommandIsDiscarded s w ∧ ∃ e, e ≠ .access ∧ t = raiseCmdError e w s) ∨
    (¬CommandIsDiscarded s w ∧ ∃ op, opcodeOf (opField w) = some op ∧ t = okayWrite (opcodeEffect w s op)) := by
  cases hop : opcodeOf (opField w) with
  | none =>
    rw [exec_decodeCommand_of_illegal hop] at h
    obtain ⟨-, rfl⟩ := perform_next_iff.1 h
    exact .inl ⟨commandIsDiscarded_of_illegal hop s, .illegalOp, by decide, rfl⟩
  | some op =>
    rw [exec_decodeCommand_of_opcode hop] at h
    obtain ⟨hl, ⟨hres, rfl⟩ | ⟨-, e, he, rfl⟩ | ⟨hres, he, rfl⟩⟩ := runCommand_cases h
    all_goals rw [commandIsDiscarded_iff_of_opcode hl hop]
    · exact .inl ⟨.inl hres, .reserved, by decide, rfl⟩
    · exact .inl ⟨.inr (by simp [he]), e, opcodeStateError_ne_access he, rfl⟩
    · exact .inr ⟨by simp [hres, he], op, rfl, rfl⟩

/-! ### The frame of a command -/

/-- No command writes an operand register, ROT or the configuration (R36). -/
theorem command_operands {w : Word} {s t : State} (h : exec (decodeCommand w) s = .next t) :
    t.cfg = s.cfg ∧ t.rot = s.rot ∧ t.posX = s.posX ∧ t.posY = s.posY ∧ t.extW = s.extW ∧ t.extH = s.extH := by
  obtain ⟨-, ⟨e, -, rfl⟩ | ⟨-, -, rfl⟩ | ⟨-, -, rfl⟩ | ⟨-, -, rfl⟩ | ⟨-, -, rfl⟩ | ⟨-, rfl⟩⟩ := command_cases h
  all_goals simp

/-- A command that changes the store is SET_PIXEL, FILL_RECT or SEQ_PUSH (R34). -/
theorem command_fb {w : Word} {s t : State} (h : exec (decodeCommand w) s = .next t) (hfb : t.fb ≠ s.fb) :
    w.toNat % 256 = 1 ∨ w.toNat % 256 = 2 ∨ w.toNat % 256 = 4 := by
  obtain ⟨-, ⟨e, -, rfl⟩ | ⟨hop, -⟩ | ⟨hop, -⟩ | ⟨-, -, rfl⟩ | ⟨hop, -⟩ | ⟨-, rfl⟩⟩ := command_cases h
  · exact absurd rfl hfb
  · exact .inl hop
  · exact .inr (.inl hop)
  · exact absurd (seqBeginEffect_fb s) hfb
  · exact .inr (.inr hop)
  · exact absurd rfl hfb

/-- Setting an error sets its STATUS bit (R162, R165). -/
theorem statusBit_of_errBits {s : State} {e : ErrorBit} {bits : BitVec 5} (h : s.errBits = setErrorBit e bits) :
    statusBit s (errorCode e) = true := by
  obtain ⟨h8, h12⟩ := errorCode_range e
  rw [statusBit_error s h8 h12, h, setErrorBit_bit e bits (by omega), Nat.sub_add_cancel h8, decide_eq_true rfl,
    Bool.true_or]

/-- A command error's STATUS bit is one of 8 to 11 (R161). -/
theorem errorCode_le_of_ne_access {e : ErrorBit} (h : e ≠ .access) : errorCode e ≤ 11 := by
  have hne := mt errorCode_access.1 h
  have := errorCode_range e
  omega

end Sys2Proof.Machine
end

section
/-! The rules of 10_state.md: the registers R22 to R32, what changes the state R34 and R36, and its reset values R37. -/

namespace Sys2Proof.Machine

/-- Settles O11, by what a transaction does: raise the bus error it is, perform a command word (which is discarded or
not), write a register, or answer a read. -/
theorem errInfoHoldsLatestError : Obligations.ErrInfoHoldsLatestError := by
  intro s t act rest hp hst
  refine ⟨?_, ?_⟩
  · rintro rfl
    rw [step_reset (step_cases hst).1 hp] at hst
    injection hst with hst
    rw [← hst, hostReset_errInfo]
  · rintro tx rfl
    have hl : s.cfg.Legal := (step_cases hst).1
    rcases step_transaction_cases hp hst with
      ⟨hbus, rfl⟩ | ⟨hbus, ⟨hcmd, hexec⟩ | ⟨r, hr, hlt, hw, hexec⟩ | ⟨hk, v, rfl⟩⟩
    · refine ⟨fun _ => ⟨rfl, statusBit_of_errBits (e := .access) rfl⟩, fun hcmd _ => ?_, absurd hbus⟩
      exact absurd hbus (not_isBusError_commandWrite hl hcmd)
    · refine ⟨fun h => absurd h hbus, fun _ hdisc => ?_, fun _ hnot => ?_⟩
      · obtain ⟨-, e, he, rfl⟩ | ⟨hno, -⟩ := command_discarded_or_performed hexec
        · exact ⟨rfl, errorCode e, (errorCode_range e).1, errorCode_le_of_ne_access he, statusBit_of_errBits rfl⟩
        · exact absurd hdisc hno
      · obtain ⟨hdisc, -⟩ | ⟨-, op, -, rfl⟩ := command_discarded_or_performed hexec
        · exact absurd ⟨hcmd, hdisc⟩ hnot
        · simp
    · refine ⟨fun h => absurd h hbus, fun hcmd _ => ?_, fun _ _ => ?_⟩
      · exact absurd (reg_eq_cmd_of_isWordWrite hw hcmd) hr
      · obtain ⟨-, -, hro⟩ | ⟨-, h⟩ | ⟨-, -, h⟩ := regWrite_errors hr hexec
        · omega
        · exact h
        · exact h
    · refine ⟨fun h => absurd h hbus, fun hcmd _ => ?_, fun _ _ => rfl⟩
      exact nomatch hk.symm.trans hcmd.1

/-- Settles O32: the two registers are the halves of rem, which fits 64 bits. -/
theorem seqRemainReadsRemaining : Obligations.SeqRemainReadsRemaining := by
  intro s rem hl hseq hrem
  have hrem : rem = seqRemaining s.seq := hrem
  subst hrem
  refine ⟨fun hopen => ?_, regValue s .seqRemainLo, regValue s .seqRemainHi, seqRemain_halves hseq, exec_regRead hl _,
    exec_regRead hl _⟩
  obtain ⟨q, hq⟩ := Option.ne_none_iff_exists'.1 hopen
  rw [hq] at hseq ⊢
  exact seqRemaining_some_range (seqInRange_some.1 hseq)

/-- Settles O33, from the bits of STATUS one by one. -/
theorem statusReadsAndClearsByOnes : Obligations.StatusReadsAndClearsByOnes := by
  intro s v hl
  refine ⟨⟨statusWord s, exec_regRead hl .status, fun n hn => statusBit_eq s hn⟩, ?_⟩
  exact ⟨_, perform_legal hl _, rfl, fun j hj => clearErrorBits_bit v s.errBits hj⟩

/-- Settles O48, by what the action is: only a command word can draw. -/
theorem storeChangesOnlyByDrawing : Obligations.StoreChangesOnlyByDrawing := by
  intro s t act rest hp hst hfb
  obtain ⟨-, ⟨hreset, -⟩ | ⟨tx, hact, ⟨hw, hcmd⟩ | ⟨r, hr, -, hreg⟩ | haccess⟩⟩ := step_action_cases hp hst
  · exact .inl hreset
  · exact .inr ⟨tx, hact, hw, command_fb hcmd hfb⟩
  · exact absurd (regWrite_frame hr hreg).2.1 hfb
  · exact absurd (congrArg State.fb haccess) hfb

/-- Settles O49, by what the action is: only a register write reaches an operand register or ROT, and only its own. -/
theorem operandRegistersChangeOnlyByHost : Obligations.OperandRegistersChangeOnlyByHost := by
  intro s t act rest hp hst
  obtain ⟨-, ⟨rfl, rfl⟩ | ⟨tx, rfl, ⟨-, hcmd⟩ | ⟨r, hr, hw, hreg⟩ | haccess⟩⟩ := step_action_cases hp hst
  · exact ⟨rfl, absurd rfl⟩
  · obtain ⟨hcfg, hrot, hposX, hposY, hextW, hextH⟩ := command_operands hcmd
    exact ⟨hcfg, fun _ => ⟨absurd hrot, absurd hposX, absurd hposY, absurd hextW, absurd hextH⟩⟩
  · obtain ⟨-, -, hcfg, -, hrot, hposX, hposY, hextW, hextH⟩ := regWrite_frame hr hreg
    refine ⟨hcfg, fun _ => ⟨fun h => ?_, fun h => ?_, fun h => ?_, fun h => ?_, fun h => ?_⟩⟩
    · obtain rfl := hrot h
      exact ⟨tx, rfl, hw⟩
    · obtain ⟨rfl, hv⟩ := hposX h
      exact ⟨tx, rfl, hw, hv⟩
    · obtain ⟨rfl, hv⟩ := hposY h
      exact ⟨tx, rfl, hw, hv⟩
    · obtain ⟨rfl, hv⟩ := hextW h
      exact ⟨tx, rfl, hw, hv⟩
    · obtain ⟨rfl, hv⟩ := hextH h
      exact ⟨tx, rfl, hw, hv⟩
  · rw [haccess]
    exact ⟨rfl, fun _ => ⟨absurd rfl, absurd rfl, absurd rfl, absurd rfl, absurd rfl⟩⟩

/-- Settles O29, register by register. -/
theorem constantRegistersRead : Obligations.ConstantRegistersRead := by
  intro s r v hl hmem
  refine ⟨regValue s r, ?_, exec_regRead hl r⟩
  simp only [List.mem_cons, Prod.mk.injEq, List.not_mem_nil, or_false] at hmem
  obtain ⟨rfl, rfl⟩ | ⟨rfl, rfl⟩ | ⟨rfl, rfl⟩ | ⟨rfl, rfl⟩ | ⟨rfl, rfl⟩ := hmem
  · exact toNat_regValue_geomW hl
  · exact toNat_regValue_geomH hl
  · exact toNat_configWord hl
  · exact toNat_regValue_apertureBase hl
  · exact toNat_regValue_apertureStride hl

/-- Settles O30: both registers read the logical size. -/
theorem logicalSizeFollowsRotation : Obligations.LogicalSizeFollowsRotation := by
  intro s bw bh hl hsize
  rw [← outerBounds_eq_ite, Prod.ext_iff] at hsize
  obtain ⟨hw, hh⟩ := hsize
  exact ⟨regValue s .logicalW, regValue s .logicalH, by rw [toNat_regValue_logicalW hl, ← hw],
    by rw [toNat_regValue_logicalH hl, ← hh], exec_regRead hl _, exec_regRead hl _⟩

/-- Settles O31, register by register; CTRL by its four rotations. -/
theorem storedRegistersRead : Obligations.StoredRegistersRead := by
  intro s r v hl hmem
  suffices hv : regValue s r = v by rw [← hv]; exact exec_regRead hl r
  simp only [List.mem_cons, Prod.mk.injEq, List.not_mem_nil, or_false] at hmem
  obtain ⟨rfl, rfl⟩ | ⟨rfl, rfl⟩ | ⟨rfl, rfl⟩ | ⟨rfl, rfl⟩ | ⟨rfl, rfl⟩ | ⟨rfl, rfl⟩ | ⟨rfl, rfl⟩ := hmem
  iterate 6 rfl
  show (rotationBits s.rot).setWidth 32 = _
  cases s.rot <;> rfl

/-- Settles O34: the rotation written is read back as the two bits that selected it. -/
theorem ctrlWriteSetsRotation : Obligations.CtrlWriteSetsRotation := by
  intro s v hl
  have hread : (regValue { s with rot := rotationOf (v.extractLsb' 0 2) } .ctrl).toNat = v.toNat % 4 := by
    simp only [regValue, rotationBits_rotationOf, BitVec.toNat_setWidth, BitVec.extractLsb'_toNat, Nat.shiftRight_zero]
    omega
  exact ⟨okayWrite { s with rot := rotationOf (v.extractLsb' 0 2) }, _, perform_legal hl _, rfl, hread,
    perform_legal hl _⟩

/-- Settles O35, from the meaning of each register's write. -/
theorem operandRegisterWritesStore : Obligations.OperandRegisterWritesStore :=
  fun _ _ hl => ⟨perform_legal hl _, perform_legal hl _, perform_legal hl _, perform_legal hl _⟩

/-- Settles O37: a word write of offset 0x18 decodes to its command, and the step performs it. -/
theorem cmdWritePerformsCommand : Obligations.CmdWritePerformsCommand := by
  intro s w rest hl hp
  exact ⟨step_instr hl hp (decode_of_isWordWrite_cmd ⟨rfl, rfl, rfl⟩), performCommand_eq_exec w s, exec_regRead hl .cmd⟩

/-- Settles O45: the store is empty and reads 0x00, and the registers that follow the configuration read it. -/
theorem resetValuesHold : Obligations.ResetValuesHold := by
  rintro c s hl rfl
  have hstatus : statusWord (State.resetWith c) = 0 := by simp [statusWord, seqOpenBit]
  have hrem : regValue (State.resetWith c) .seqRemainHi = 0 := by simp [regValue, seqRemaining]
  refine ⟨fun k i _ _ => Memory.read_nil _, rfl, rfl, rfl, rfl, rfl, rfl, hstatus, rfl, rfl, rfl, rfl, hrem, ?_⟩
  exact ⟨toNat_regValue_logicalW hl, toNat_regValue_logicalH hl, toNat_regValue_geomW hl, toNat_regValue_geomH hl,
    toNat_configWord hl, toNat_regValue_apertureBase hl, toNat_regValue_apertureStride hl⟩

theorem good_resetWith {c : Config} (h : c.Legal) : Good (State.resetWith c) := ⟨h, storeGood_nil c, seqInRange_none⟩

theorem legal_reference : Config.reference.Legal := by decide

/-- Settles O46: the store is empty and no sequence is open. -/
theorem resetStateIsGood : Obligations.ResetStateIsGood := ⟨fun _ => good_resetWith, good_resetWith legal_reference⟩

end Sys2Proof.Machine
end

section
/-! What the rules of 20_memory.md are settled from: what the aperture answers at each byte of the store (R59, R61), the
bus error of a write (R165), what SET_PIXEL leaves in the store (R121), and that every transaction is answered (R174). -/

namespace Sys2Proof.Machine

/-! ### Bus errors of writes -/

/-- `raise BusError` of a write, with STATUS bit 12 written out as bit 4 of the error bits (R27, R165). -/
theorem raiseBusError_write_eq (a : Word) (s : State) :
    raiseBusError .write a s =
      { s with errBits := s.errBits ||| 0b10000, errInfo := a, response := some { status := .error, data := none } } :=
  rfl

/-- A write in the aperture is FB_WRITE, whatever its width: the aperture lies above the register block (R5, R61). -/
theorem decode_apertureWrite {c : Config} (hc : c.Legal) {a : Word} (n : Width) (d : Word)
    (hap : inAperture c a.toNat = true) :
    decode c { kind := .write, addr := a, width := n, data := d } = .instr (.fbWrite a n d) := by
  have hbase : 0x1000 ≤ c.fbBase := by have := legal_iff.1 hc; omega
  have habove : ¬a.toNat < 0x1000 := by have := (inAperture_iff.1 hap).1; omega
  unfold decode
  rw [if_neg habove, if_pos hap]
  rfl

/-- FB_WRITE raises the bus error of its offset (R61). -/
theorem exec_fbWrite {s : State} (hl : s.cfg.Legal) (a : Word) (n : Width) (d : Word) :
    exec (.fbWrite a n d) s = .next (raiseBusError .write a s) := perform_legal hl _

/-! ### Reads of the aperture -/

/-- The host byte offset of a byte of the store is carried whole by the bus (R5, R56). -/
theorem toNat_storeAddr {c : Config} (hc : c.Legal) {k i : Nat} (hk : k < c.nPlanes) (hi : i < c.bufBytes) :
    (BitVec.ofNat 32 (storeAddr c k i)).toNat = storeAddr c k i :=
  toNat_word_ofNat (storeAddr_lt hc hk (hi.trans_le (legal_stride hc)))

theorem apertureByte_storeAddr (s : State) {k i : Nat} (hi : i < s.cfg.planeStride) :
    apertureByte s (storeAddr s.cfg k i) = (fbRead s.cfg k i s.fb).setWidth 32 := by
  rw [apertureByte, aperturePlane_storeAddr hi, apertureOffset_storeAddr hi]

theorem apertureWord_storeAddr (s : State) {k i : Nat} (hi : i < s.cfg.planeStride) :
    apertureWord s (storeAddr s.cfg k i) =
      fbRead s.cfg k (i + 3) s.fb ++ fbRead s.cfg k (i + 2) s.fb ++ fbRead s.cfg k (i + 1) s.fb
        ++ fbRead s.cfg k i s.fb := by
  rw [apertureWord, aperturePlane_storeAddr hi, apertureOffset_storeAddr hi]

/-- FB_READ_BYTE at the offset of byte i of plane k answers that byte (R59). -/
theorem exec_fbReadByte_storeAddr {s : State} (hl : s.cfg.Legal) {k i : Nat} (hk : k < s.cfg.nPlanes)
    (hi : i < s.cfg.bufBytes) :
    exec (.fbReadByte (BitVec.ofNat 32 (storeAddr s.cfg k i))) s =
      .next (okayRead ((fbRead s.cfg k i s.fb).setWidth 32) s) := by
  have hs : i < s.cfg.planeStride := hi.trans_le (legal_stride hl)
  have ha := toNat_storeAddr hl hk hi
  rw [fbReadByte_ok hl (by rw [ha]; exact inAperture_storeAddr hk hs)
    (by rw [ha, apertureOffset_storeAddr hs]; exact hi), ha, apertureByte_storeAddr s hs]

/-- A byte index that is a multiple of 4 stands at an aligned host byte offset, since FB_BASE and PLANE_STRIDE are (R5). -/
theorem storeAddr_mod_four {c : Config} (hc : c.Legal) (k : Nat) {i : Nat} (h4 : i % 4 = 0) :
    storeAddr c k i % 4 = 0 := by
  have hbase : c.fbBase % 4 = 0 ∧ c.planeStride % 4 = 0 := by have := legal_iff.1 hc; omega
  have hplane : k * c.planeStride % 4 = 0 := by rw [Nat.mul_mod, hbase.2, Nat.mul_zero]
  unfold storeAddr
  omega

/-- FB_READ_WORD at the offset of byte i of plane k, i a multiple of 4, answers bytes i to i + 3 (R59). -/
theorem exec_fbReadWord_storeAddr {s : State} (hl : s.cfg.Legal) {k i : Nat} (hk : k < s.cfg.nPlanes)
    (hi : i + 4 ≤ s.cfg.bufBytes) (h4 : i % 4 = 0) :
    exec (.fbReadWord (BitVec.ofNat 32 (storeAddr s.cfg k i))) s =
      .next (okayRead (fbRead s.cfg k (i + 3) s.fb ++ fbRead s.cfg k (i + 2) s.fb ++ fbRead s.cfg k (i + 1) s.fb
        ++ fbRead s.cfg k i s.fb) s) := by
  have hs : i < s.cfg.planeStride := by have := legal_stride hl; omega
  have ha := toNat_storeAddr hl hk (show i < s.cfg.bufBytes by omega)
  rw [fbReadWord_ok hl (by rw [ha]; exact storeAddr_mod_four hl k h4)
    (by rw [ha]; exact inAperture_storeAddr hk hs) (by rw [ha, apertureOffset_storeAddr hs]; exact hi), ha,
    apertureWord_storeAddr s hs]

/-- Four bytes joined, the first of them lowest, as a little-endian number. -/
theorem toNat_littleEndian (b₀ b₁ b₂ b₃ : Byte) :
    (b₃ ++ b₂ ++ b₁ ++ b₀).toNat =
      b₀.toNat + b₁.toNat * 2 ^ 8 + b₂.toNat * 2 ^ 16 + b₃.toNat * 2 ^ 24 := by
  rw [append_toNat, append_toNat, append_toNat]
  omega

/-! ### SET_PIXEL -/

/-- SET_PIXEL with no sequence open and a colour of NPLANES bits has its effect (R120, R164). -/
theorem exec_setPixel {s : State} (hl : s.cfg.Legal) (hseq : s.seq = none) {color : Byte}
    (hfits : ColorFits s.cfg color) : exec (.setPixel 0 color) s = .next (okayWrite (setPixelEffect color s)) :=
  runCommand_ok hl (reservedColor_of_fits hl hfits) (requireNoSeq_eq_none.2 hseq)

/-- SET_PIXEL gives the pixel its point is rotated to the colour's bit of the plane (R121). -/
theorem pixelBit_setPixelEffect {s : State} (hg : Good s) (color : Byte) {k px py : Nat} (hin : InStore s.cfg k px py)
    (hrot : rot s.cfg s.rot (sint s.posX) (sint s.posY) = ((px : Int), (py : Int))) :
    pixelBit s.cfg (setPixelEffect color s).fb k px py = color.getLsbD k :=
  ((paints_logicalPlot hg.1 s.rot (sint s.posX) (sint s.posY) color s.fb hg.2.1).2 k px py hin).1 hrot

/-! ### Every transaction is answered -/

/-- A machine that R5 allows answers every instruction with a next state: nothing stops this block (R160, R174). -/
theorem exec_answers {s : State} (hl : s.cfg.Legal) (i : Instr) : ∃ t, exec i s = .next t := by
  cases i with
  | setPixel | fillRect | seqBegin | seqPush => exact ⟨_, runCommand_legal hl _ _ _ _⟩
  | seqEnd => exact ⟨_, runCommand_legal hl _ _ none _⟩
  | regWrite r v =>
    cases r with
    | cmd =>
      obtain ⟨t, ht, -⟩ := command_answers (w := v) hl
      exact ⟨t, (performCommand_eq_exec v s).trans ht⟩
    | _ => exact ⟨_, perform_legal hl _⟩
  | illegalOp | regRead | fbReadByte | fbReadWord | fbWrite => exact ⟨_, perform_legal hl _⟩

theorem step_transaction_answers {s : State} {tx : Transaction} {rest : List HostAction} (hl : s.cfg.Legal)
    (hp : s.pending = .transact tx :: rest) : ∃ t, step s = .next t := by
  cases hd : decode s.cfg tx with
  | busError cause => exact ⟨_, step_busError hl hp hd⟩
  | instr i =>
    rw [step_instr hl hp hd]
    exact exec_answers (s := { s with pending := rest }) hl i

end Sys2Proof.Machine
end

section
/-! The rules of 20_memory.md: the layout of the store R50 to R53, the port R55 to R58, and the read aperture R59 to R62. -/

namespace Sys2Proof.Machine

/-- Settles O8, by what the transaction's step does: raise the bus error it is, perform a command word, write a register
that takes writes, or answer a read; the last three answer OKAY. -/
theorem errorResponseExactlyOnBusErrors : Obligations.ErrorResponseExactlyOnBusErrors := by
  intro s tx rest hl hp
  obtain ⟨t, hst⟩ := step_transaction_answers hl hp
  rcases step_transaction_cases hp hst with ⟨hbus, rfl⟩ | ⟨hbus, hcases⟩
  · exact ⟨fun _ => hst, absurd hbus⟩
  · refine ⟨fun h => absurd h hbus, fun _ => ?_⟩
    rcases hcases with ⟨hw, hexec⟩ | ⟨r, hr, hlt, hw, hexec⟩ | ⟨hk, v, rfl⟩
    · obtain ⟨u, hu, hresp, -⟩ := command_answers (w := tx.data) (s := { s with pending := rest }) hl
      obtain rfl : t = u := by injection hexec.symm.trans hu
      exact ⟨t, none, hst, hresp, iff_of_true rfl hw.1⟩
    · obtain ⟨u, hu, hresp, -⟩ := regWrite_answers (v := tx.data) (s := { s with pending := rest }) hl hr hlt
      obtain rfl : t = u := by injection hexec.symm.trans hu
      exact ⟨t, none, hst, hresp, iff_of_true rfl hw.1⟩
    · exact ⟨_, some v, hst, rfl, by simp [hk]⟩

/-- Settles O13: each pixel has its bit and each bit its pixel, and a byte store reaches its own byte only. -/
theorem storeLayoutIsBijective : Obligations.StoreLayoutIsBijective := by
  intro c hc
  refine ⟨fun k px py ⟨_, hx, hy⟩ => ⟨byteIndex_lt hc hx hy, bitPos_lt c px⟩, fun _ _ _ _ => pixel_inj hc,
    fun _ _ => pixel_surj hc, fun m k i k' i' v hm _ hi _ hi' => ?_⟩
  have hstride := legal_stride hc
  exact fbRead_fbWrite (storeGood_wf hm) v (hi.trans_le hstride) (hi'.trans_le hstride)

/-- Settles O23: the byte the aperture answers holds the pixel SET_PIXEL painted. -/
theorem setPixelIsReadBack : Obligations.SetPixelIsReadBack := by
  intro s color k px py hg hseq hfits hin hrot
  have hl : s.cfg.Legal := hg.1
  have hbit := pixelBit_setPixelEffect hg color hin hrot
  obtain ⟨hk, hx, hy⟩ := hin
  refine ⟨_, _, _, exec_setPixel hl hseq hfits,
    exec_fbReadByte_storeAddr (s := okayWrite (setPixelEffect color s)) hl hk (byteIndex_lt hl hx hy), rfl, ?_, ?_⟩
  · rw [BitVec.getLsbD_setWidth, decide_eq_true (show bitPos s.cfg px < 32 by have := bitPos_lt s.cfg px; omega),
      Bool.true_and]
    exact hbit
  · rw [BitVec.toNat_setWidth_of_le (by omega)]
    exact BitVec.isLt _

/-- Settles O38: byte i of plane k stands at the offset read. -/
theorem apertureByteRead : Obligations.ApertureByteRead :=
  fun _ _ _ hl hk hi => exec_fbReadByte_storeAddr hl hk hi

/-- Settles O39: the word read is four bytes joined, the byte of the lowest index lowest. -/
theorem apertureWordReadIsLittleEndian : Obligations.ApertureWordReadIsLittleEndian :=
  fun _ _ _ hl hk hi h4 => ⟨_, exec_fbReadWord_storeAddr hl hk hi h4, toNat_littleEndian _ _ _ _⟩

/-- Settles O36: the registers listed are the read-only ones, each at its offset of R22. -/
theorem readOnlyWritesAreBusErrors : Obligations.ReadOnlyWritesAreBusErrors := by
  intro s v r offset hl hmem
  have hro : offset = regOffset r ∧ 0x1C ≤ regOffset r := by
    simp only [List.mem_cons, Prod.mk.injEq, List.not_mem_nil, or_false] at hmem
    obtain ⟨rfl, rfl⟩ | ⟨rfl, rfl⟩ | ⟨rfl, rfl⟩ | ⟨rfl, rfl⟩ | ⟨rfl, rfl⟩ | ⟨rfl, rfl⟩ | ⟨rfl, rfl⟩ | ⟨rfl, rfl⟩ |
      ⟨rfl, rfl⟩ | ⟨rfl, rfl⟩ := hmem
    all_goals decide
  obtain ⟨rfl, hlow⟩ := hro
  rw [regWrite_readOnly hl hlow, raiseBusError_write_eq]
  rfl

/-- Settles O40: the transaction is FB_WRITE, whose meaning is the bus error. -/
theorem apertureWriteIsBusError : Obligations.ApertureWriteIsBusError := by
  intro s a n d hl hlow hhigh
  refine ⟨decode_apertureWrite hl n d (inAperture_iff.2 ⟨hlow, hhigh⟩), ?_⟩
  rw [exec_fbWrite hl, raiseBusError_write_eq]

/-- Settles O41, from the step's own case for a transaction that decodes. -/
theorem stepRunsDecodedInstruction : Obligations.StepRunsDecodedInstruction := fun _ _ _ _ => step_instr

end Sys2Proof.Machine
end

section
/-! What the rules of 30_encoding.md are settled from: each constructor's encoding decodes back (R80, R87), a decoded
transaction is its instruction's encoding, the checks of a command word by its fields (R84, R85, R164), and what the
transactions of the pseudo-instructions do when they are put on the port (R89). -/

namespace Sys2Proof

open Sys2Proof.Machine

/-! ### Decoding what was encoded -/

/-- The well-formedness of an aperture read is the decoder's own check (R59). -/
theorem holdsBytes_iff {c : Config} {a n : Nat} :
    c.holdsBytes a n = true ↔ inAperture c a = true ∧ apertureOffset c a + n ≤ c.bufBytes := by
  rw [Config.holdsBytes, inAperture, apertureOffset, Bool.and_eq_true (_ && _), decide_eq_true_iff]

/-- A transaction in the aperture is decoded by the aperture's table: the aperture lies above the register block (R87). -/
theorem decode_of_inAperture {c : Config} (hc : c.Legal) {t : Transaction} (hap : inAperture c t.addr.toNat = true) :
    decode c t = decodeAperture c t := by
  have habove : 0x1000 ≤ t.addr.toNat := Laws.above_registers hc (inAperture_iff.1 hap).1
  rw [decode, if_neg (by omega), if_pos hap]

theorem decode_fbReadByte {c : Config} (hc : c.Legal) {a : Word} (h : c.holdsBytes a.toNat 1 = true) :
    decode c { kind := .read, addr := a, width := .byte, data := 0 } = .instr (.fbReadByte a) := by
  obtain ⟨hap, hoff⟩ := holdsBytes_iff.1 h
  rw [decode_of_inAperture hc hap]
  exact if_pos hoff

theorem decode_fbReadWord {c : Config} (hc : c.Legal) {a : Word} (h4 : a.toNat % 4 = 0)
    (h : c.holdsBytes a.toNat 4 = true) :
    decode c { kind := .read, addr := a, width := .word, data := 0 } = .instr (.fbReadWord a) := by
  obtain ⟨hap, hoff⟩ := holdsBytes_iff.1 h
  rw [decode_of_inAperture hc hap]
  exact (if_neg (not_not.2 h4)).trans (if_pos hoff)

/-- A command word whose OP is not assigned decodes to ILLEGAL_OP of the word (R84). -/
theorem decodeCommand_of_illegal {w : Word} (h : opcodeOf (opField w) = none) : decodeCommand w = .illegalOp w := by
  rw [decodeCommand, h]

/-- ILLEGAL_OP is well-formed on exactly the words whose OP selects no opcode. -/
theorem illegalOp_wellFormed_iff {c : Config} {w : Word} :
    (Instr.illegalOp w).WellFormed c = true ↔ opcodeOf (opField w) = none := by
  rw [opcodeOf_eq_none, opField_toNat]
  simp [Instr.WellFormed]

theorem decode_commandWrite_of_decodeCommand (c : Config) {w : Word} {i : Instr} (h : decodeCommand w = i) :
    decode c (commandWrite w) = .instr i := by
  rw [decode_commandWrite, h]

/-- The transaction of a well-formed instruction decodes to the instruction. -/
theorem decode_encode {c : Config} (hc : c.Legal) {i : Instr} (h : i.WellFormed c = true) :
    decode c (encode i) = .instr i := by
  cases i with
  | setPixel rsv color => exact decode_commandWrite_of_decodeCommand c (decodeCommand_commandWord rsv color .setPixel)
  | fillRect rsv color => exact decode_commandWrite_of_decodeCommand c (decodeCommand_commandWord rsv color .fillRect)
  | seqBegin rsv color => exact decode_commandWrite_of_decodeCommand c (decodeCommand_commandWord rsv color .seqBegin)
  | seqPush rsv color => exact decode_commandWrite_of_decodeCommand c (decodeCommand_commandWord rsv color .seqPush)
  | seqEnd rsv color => exact decode_commandWrite_of_decodeCommand c (decodeCommand_commandWord rsv color .seqEnd)
  | illegalOp w =>
    exact decode_commandWrite_of_decodeCommand c (decodeCommand_of_illegal (illegalOp_wellFormed_iff.1 h))
  | regWrite r v => exact (decode_register c r .write v).trans (if_neg (of_decide_eq_true h))
  | regRead r => exact decode_register c r .read 0
  | fbReadByte a => exact decode_fbReadByte hc h
  | fbReadWord a =>
    obtain ⟨h4, hbytes⟩ := (Bool.and_eq_true _ _).mp h
    exact decode_fbReadWord hc (of_decide_eq_true h4) hbytes
  | fbWrite a n d => exact decode_apertureWrite hc n d h

/-! ### Encoding what was decoded -/

theorem decodeCommand_wellFormed (c : Config) (w : Word) : (decodeCommand w).WellFormed c = true := by
  cases hop : opcodeOf (opField w) with
  | none =>
    rw [decodeCommand_of_illegal hop]
    exact illegalOp_wellFormed_iff.2 hop
  | some op =>
    rw [decodeCommand, hop]
    cases op <;> rfl

/-- The instruction of a command word encodes to the CMD write of the word. -/
theorem encode_decodeCommand (w : Word) : encode (decodeCommand w) = commandWrite w := by
  cases hop : opcodeOf (opField w) with
  | none => rw [decodeCommand_of_illegal hop, encode]
  | some op =>
    have hw := commandWord_fields (opcodeByte_of_opcodeOf hop)
    rw [decodeCommand, hop]
    cases op <;> exact congrArg commandWrite hw

/-- A word write at a register's offset, written out. -/
theorem eq_of_isWordWrite {t : Transaction} {r : Reg} (h : IsWordWrite t (regOffset r)) :
    t = { kind := .write, addr := regAddr r, width := .word, data := t.data } := by
  obtain ⟨hk, hw, ha⟩ := h
  rw [← hk, ← hw, ← eq_regAddr ha]

/-- Every instruction the decoder gives is well-formed. -/
theorem wellFormed_of_decode {c : Config} {t : Transaction} {i : Instr} (h : decode c t = .instr i) :
    i.WellFormed c = true := by
  rcases decode_instr_cases h with ⟨-, rfl⟩ | ⟨r, hr, -, rfl⟩ | ⟨r, -, -, -, rfl⟩ | ⟨-, -, -, hap, hoff, rfl⟩ |
    ⟨-, -, -, h4, hap, hoff, rfl⟩ | ⟨-, -, hap, rfl⟩
  · exact decodeCommand_wellFormed c t.data
  · exact decide_eq_true hr
  · rfl
  · exact holdsBytes_iff.2 ⟨hap, hoff⟩
  · exact (Bool.and_eq_true _ _).mpr ⟨decide_eq_true h4, holdsBytes_iff.2 ⟨hap, hoff⟩⟩
  · exact hap

/-- The instruction a transaction decodes to encodes to the transaction, the data word of a read apart (R88). -/
theorem encode_of_decode {c : Config} {t : Transaction} {i : Instr} (h : decode c t = .instr i) :
    encode i = (match t.kind with | .write => t | .read => { t with data := 0 }) := by
  rcases decode_instr_cases h with ⟨hcmd, rfl⟩ | ⟨r, -, hwrite, rfl⟩ | ⟨r, hk, hw, ha, rfl⟩ |
    ⟨-, hk, hw, -, -, rfl⟩ | ⟨-, hk, hw, -, -, -, rfl⟩ | ⟨-, hk, -, rfl⟩
  · rw [hcmd.1, encode_decodeCommand]
    exact (eq_of_isWordWrite (r := .cmd) hcmd).symm
  · rw [hwrite.1]
    exact (eq_of_isWordWrite hwrite).symm
  · simp only [hk]
    rw [encode, ← eq_regAddr ha, ← hw]
  · simp only [hk]
    rw [encode, ← hw]
  · simp only [hk]
    rw [encode, ← hw]
  · simp only [hk]
    rw [encode, ← hk]

end Sys2Proof

namespace Sys2Proof.Machine

/-! ### The checks of a command word -/

theorem exec_illegalOp {s : State} (hl : s.cfg.Legal) (w : Word) :
    exec (.illegalOp w) s = .next (raiseCmdError .illegalOp w s) := perform_legal hl _

/-- `raise CmdError` sets its own STATUS bit and leaves every other (R162, R163). -/
theorem statusBit_raiseCmdError (e : ErrorBit) (w : Word) (s : State) {n : Nat} (hn : n < 32) :
    statusBit (raiseCmdError e w s) n = (decide (n = errorCode e) || statusBit s n) := by
  have hcode := errorCode_range e
  by_cases hrange : 8 ≤ n ∧ n ≤ 12
  · obtain ⟨h8, h12⟩ := hrange
    rw [statusBit_error _ h8 h12, statusBit_error _ h8 h12, raiseCmdError_errBits, setErrorBit_bit e _ (by omega),
      Nat.sub_add_cancel h8]
  · rw [decide_eq_false (by omega), Bool.false_or, statusBit_eq _ hn, statusBit_eq _ hn, raiseCmdError_seq,
      decide_eq_false hrange, Bool.false_and, Bool.false_and]

/-- R85's check of a word with a legal OP, on the fields of R81. -/
theorem opcodeReserved_iff {c : Config} (hc : c.Legal) {w : Word} {o : Opcode} {op : Nat}
    (hop : op = (opcodeByte o).toNat) :
    opcodeReserved c w o = true ↔
      w.toNat / 65536 ≠ 0 ∨ ((op = 1 ∨ op = 2 ∨ op = 4) ∧ 2 ^ c.nPlanes ≤ w.toNat / 256 % 256) ∨
        ((op = 3 ∨ op = 5) ∧ w.toNat / 256 % 256 ≠ 0) := by
  subst hop
  cases o with
  | setPixel | fillRect | seqPush =>
    simp [opcodeByte, opcodeReserved, reservedColor_iff hc, rsvField_toNat, colorField_toNat]
  | seqBegin | seqEnd =>
    simp [opcodeByte, opcodeReserved, reservedNoColor_iff, rsvField_toNat, colorField_toNat]

/-- R164's third check of a word with a legal OP: SET_PIXEL, FILL_RECT and SEQ_BEGIN need no sequence open, SEQ_PUSH needs
one. -/
theorem opcodeStateError_eq_ite (s : State) {o : Opcode} {op : Nat} (hop : op = (opcodeByte o).toNat) :
    opcodeStateError s o =
      if (op = 1 ∨ op = 2 ∨ op = 3) ∧ s.seq ≠ none then some .seqOpen
      else if op = 4 ∧ s.seq = none then some .noSeq else none := by
  subst hop
  cases o with
  | setPixel | fillRect | seqBegin => cases hseq : s.seq <;> simp [opcodeByte, opcodeStateError, requireNoSeq, hseq]
  | seqPush => cases hseq : s.seq <;> simp [opcodeByte, opcodeStateError, requireSeq, hseq]
  | seqEnd => simp [opcodeByte, opcodeStateError]

/-- A word's OP is illegal exactly when its low byte is 0 or above 5 (R84). -/
theorem opcodeOf_opField_eq_none {w : Word} :
    opcodeOf (opField w) = none ↔ w.toNat % 256 = 0 ∨ 5 < w.toNat % 256 := by
  rw [opcodeOf_eq_none, opField_toNat]
  rfl

theorem toNat_opcodeByte_of_opcodeOf {w : Word} {o : Opcode} (h : opcodeOf (opField w) = some o) :
    w.toNat % 256 = (opcodeByte o).toNat := by
  rw [← opcodeByte_of_opcodeOf h, opField_toNat]

@[simp] theorem opcodeEffect_errBits (w : Word) (s : State) (o : Opcode) : (opcodeEffect w s o).errBits = s.errBits := by
  cases o <;> simp [opcodeEffect]

/-- With no error bit set, none of STATUS bits 8 to 12 is set (R27). -/
theorem statusBit_of_errBits_eq_zero {s : State} (h : s.errBits = 0) {n : Nat} (h8 : 8 ≤ n) (h12 : n ≤ 12) :
    statusBit s n = false := by
  rw [statusBit_error s h8 h12, h]
  exact BitVec.getLsbD_zero

/-- The command word is performed without ERR_ILLEGAL_OP and without ERR_RESERVED: it passes the decode checks (R86). -/
def PassesDecodeChecks (s : State) (w : Word) : Prop :=
  ∃ t, exec (decodeCommand w) s = .next t ∧ statusBit t 8 = false ∧ statusBit t 9 = false

theorem not_passesDecodeChecks_of_raise {s : State} {w : Word} {e : ErrorBit} (he : e = .illegalOp ∨ e = .reserved)
    (h : exec (decodeCommand w) s = .next (raiseCmdError e w s)) : ¬PassesDecodeChecks s w := by
  rintro ⟨t, ht, h8, h9⟩
  obtain rfl : raiseCmdError e w s = t := by injection h.symm.trans ht
  have hset : statusBit (raiseCmdError e w s) (errorCode e) = true := statusBit_of_errBits rfl
  obtain rfl | rfl := he
  · exact absurd hset (by rw [errorCode, h8]; decide)
  · exact absurd hset (by rw [errorCode, h9]; decide)

theorem passesDecodeChecks_of_raise {s : State} {w : Word} {e : ErrorBit} (he : 10 ≤ errorCode e) (hbits : s.errBits = 0)
    (h : exec (decodeCommand w) s = .next (raiseCmdError e w s)) : PassesDecodeChecks s w := by
  refine ⟨_, h, ?_, ?_⟩
  all_goals
    rw [statusBit_raiseCmdError e w s (by decide), decide_eq_false (by omega), Bool.false_or]
    exact statusBit_of_errBits_eq_zero hbits (by decide) (by decide)

/-- The words R86 lists, as conditions on the fields OP, COLOR and RSV of R81. -/
theorem legalCommandWord_iff {n w : Nat} (hn : n ≤ 8) :
    ((∃ color : Nat, color < 2 ^ n ∧ (w = color * 256 + 0x01 ∨ w = color * 256 + 0x02 ∨ w = color * 256 + 0x04)) ∨
        w = 3 ∨ w = 5) ↔
      ¬(w % 256 = 0 ∨ 5 < w % 256) ∧ w / 65536 = 0 ∧
        ¬((w % 256 = 1 ∨ w % 256 = 2 ∨ w % 256 = 4) ∧ 2 ^ n ≤ w / 256 % 256) ∧
        ¬((w % 256 = 3 ∨ w % 256 = 5) ∧ w / 256 % 256 ≠ 0) := by
  have hcolors : 2 ^ n ≤ 256 := Nat.pow_le_pow_right (by decide) hn
  generalize 2 ^ n = colors at *
  constructor
  · rintro (⟨color, hcolor, h⟩ | h) <;> omega
  · rintro ⟨hop, hrsv, hcolor, hnoColor⟩
    by_cases hplain : w % 256 = 3 ∨ w % 256 = 5
    · exact .inr (by omega)
    · exact .inl ⟨w / 256, by omega, by omega⟩

/-! ### Pseudo-instructions on the port -/

/-- The first instruction submitted is what the next step performs, on the state with the others still waiting. -/
theorem step_submit_cons {s : State} (hl : s.cfg.Legal) {i : Instr} (hi : i.WellFormed s.cfg = true) (is : List Instr) :
    step (submit (i :: is) s) = exec i (submit is s) :=
  step_instr (s := submit (i :: is) s) hl rfl (decode_encode hl hi)

theorem run_submit_cons {s t : State} (hl : s.cfg.Legal) {i : Instr} (hi : i.WellFormed s.cfg = true) {is : List Instr}
    (hexec : exec i (submit is s) = .next t) (n : Nat) :
    Sys2Proof.core.run (n + 1) (submit (i :: is) s) = Sys2Proof.core.run n t :=
  core_run_succ n ((step_submit_cons hl hi is).trans hexec)

/-- What the four writes of AREA leave: the operand registers, and the last write's OKAY (R24, R25, R89). -/
def withOperands (x y w h : Word) (s : State) : State :=
  okayWrite { s with posX := x, posY := y, extW := w, extH := h }

/-- AREA takes four steps to set the operand registers, whatever waits behind it (R89). -/
theorem run_areaWrites {s : State} (hl : s.cfg.Legal) (x y w h : Word) (is : List Instr) (n : Nat) :
    Sys2Proof.core.run (n + 4) (submit (areaWrites x y w h ++ is) s) =
      Sys2Proof.core.run n (submit is (withOperands x y w h s)) := by
  have hx := run_submit_cons (s := s) (i := .regWrite .posX x)
    (is := .regWrite .posY y :: .regWrite .extW w :: .regWrite .extH h :: is) hl rfl (perform_legal hl _) (n + 3)
  have hy := run_submit_cons (s := okayWrite { s with posX := x }) (i := .regWrite .posY y)
    (is := .regWrite .extW w :: .regWrite .extH h :: is) hl rfl (perform_legal hl _) (n + 2)
  have hw := run_submit_cons (s := okayWrite { s with posX := x, posY := y }) (i := .regWrite .extW w)
    (is := .regWrite .extH h :: is) hl rfl (perform_legal hl _) (n + 1)
  have hh := run_submit_cons (s := okayWrite { s with posX := x, posY := y, extW := w }) (i := .regWrite .extH h)
    (is := is) hl rfl (perform_legal hl _) n
  exact hx.trans (hy.trans (hw.trans hh))

/-- FILL_RECT with no sequence open and a colour of NPLANES bits has its effect (R122, R164). -/
theorem exec_fillRect {s : State} (hl : s.cfg.Legal) (hseq : s.seq = none) {color : Byte}
    (hfits : ColorFits s.cfg color) : exec (.fillRect 0 color) s = .next (okayWrite (fillRectEffect color s)) :=
  runCommand_ok hl (reservedColor_of_fits hl hfits) (requireNoSeq_eq_none.2 hseq)

/-- RECT in five steps: the operand registers set, then the fill (R89). -/
theorem run_rectWrites {s : State} (hl : s.cfg.Legal) (hseq : s.seq = none) (x y w h : Word) {color : Byte}
    (hfits : ColorFits s.cfg color) :
    Sys2Proof.core.run 5 (submit (rectWrites x y w h color) s) =
      .next (okayWrite (fillRectEffect color (withOperands x y w h s))) := by
  have hfill : exec (.fillRect 0 color) (submit [] (withOperands x y w h s)) =
      .next (okayWrite (fillRectEffect color (withOperands x y w h s))) :=
    exec_fillRect (s := withOperands x y w h s) hl hseq hfits
  exact (run_areaWrites hl x y w h [.fillRect 0 color] 1).trans
    (run_submit_cons (s := withOperands x y w h s) hl rfl hfill 0)

/-! ### The fill of the whole display -/

/-- The full logical bounds as an area. -/
def fullArea (c : Config) (r : Rotation) : Area := { x := 0, y := 0, w := (outerBounds c r).1, h := (outerBounds c r).2 }

/-- Every rotation takes the full logical bounds onto the full physical bounds (R107, R108). -/
theorem rotRect_fullArea (c : Config) (r : Rotation) :
    rotRect c r (fullArea c r) = { x := 0, y := 0, w := c.fbW, h := c.fbH } := by
  cases r <;> simp [rotRect, rotateRect, outerBounds, fullArea]

/-- A fill of the full logical bounds gives every bit of the store its plane's bit of the colour (R52, R122). -/
theorem pixelBit_fillArea_fullArea {c : Config} (hc : c.Legal) {m : Memory} (hm : storeGood c m = true) (r : Rotation)
    (color : Byte) {k px py : Nat} (hin : InStore c k px py) :
    pixelBit c (fillArea c r (fullArea c r) color m) k px py = color.getLsbD k := by
  refine ((paints_fillArea hc r (fullArea c r) color m hm).2 k px py hin).1 ?_
  obtain ⟨-, hx, hy⟩ := hin
  simp only [rotRect_fullArea, AreaHas]
  omega

theorem getLsbD_runByte (b : Bool) {j : Nat} (hj : j < 8) : (runByte b).getLsbD j = b := by
  cases b
  · simp [runByte]
  · interval_cases j <;> rfl

/-- A fill of the full logical bounds gives every byte of plane k the value 0xFF or 0x00 by colour bit k (R52). -/
theorem fbRead_fillArea_fullArea {c : Config} (hc : c.Legal) {m : Memory} (hm : storeGood c m = true) (r : Rotation)
    (color : Byte) {k i : Nat} (hk : k < c.nPlanes) (hi : i < c.bufBytes) :
    fbRead c k i (fillArea c r (fullArea c r) color m) = runByte (color.getLsbD k) := by
  refine BitVec.eq_of_getLsbD_eq fun j hj => ?_
  obtain ⟨px, py, hx, hy, rfl, rfl⟩ := pixel_surj hc hi hj
  rw [getLsbD_runByte _ hj]
  exact pixelBit_fillArea_fullArea hc hm r color ⟨hk, hx, hy⟩

/-- The registers CLEAR writes hold the full logical bounds (R31, R89). -/
theorem areaOperand_withOperands_full {s : State} (hl : s.cfg.Legal) :
    areaOperand (withOperands 0 0 (BitVec.ofNat 32 (outerBounds s.cfg s.rot).1)
      (BitVec.ofNat 32 (outerBounds s.cfg s.rot).2) s) = fullArea s.cfg s.rot := by
  obtain ⟨hw, hh⟩ := outerBounds_lt hl s.rot
  have hw' : uint (BitVec.ofNat 32 (outerBounds s.cfg s.rot).1) = (outerBounds s.cfg s.rot).1 :=
    toNat_word_ofNat (by omega)
  have hh' : uint (BitVec.ofNat 32 (outerBounds s.cfg s.rot).2) = (outerBounds s.cfg s.rot).2 :=
    toNat_word_ofNat (by omega)
  simp only [areaOperand, fullArea, withOperands, okayWrite_posX, okayWrite_posY, okayWrite_extW, okayWrite_extH, hw', hh']
  rfl

end Sys2Proof.Machine
end

section
/-! The rules of 30_encoding.md: decode and encode R80 to R88, the checks of a command word R84 to R86 and R164, and the
pseudo-instruction CLEAR R89. -/

namespace Sys2Proof.Machine

/-- Settles O1: a command word is decoded under every configuration alike, and so is a register's offset. -/
theorem writtenOutWordsDecode : Obligations.WrittenOutWordsDecode := fun c =>
  ⟨decode_commandWrite c 0x00000101, decode_commandWrite c 0x00000302, decode_commandWrite c 0x00000003,
    decode_commandWrite c 0x0000FF04, decode_commandWrite c 0x80000005, decode_commandWrite c 0xFFFF0007,
    decode_register c .posX .write 6, decode_register c .logicalW .read 0⟩

/-- Settles O12: the meaning is `raise CmdError` whatever the word. -/
theorem illegalOpIsDiscarded : Obligations.IllegalOpIsDiscarded :=
  fun s w hl => ⟨_, exec_illegalOp hl w, rfl, fun _ hn => statusBit_raiseCmdError .illegalOp w s hn⟩

/-- Settles O2, constructor by constructor. -/
theorem decodeOfEncodeIsIdentity : Obligations.DecodeOfEncodeIsIdentity := fun _ _ hc => decode_encode hc

/-- Settles O3, by what a transaction that decodes to an instruction can be. -/
theorem decodedInstructionEncodesBack : Obligations.DecodedInstructionEncodesBack :=
  fun _ _ _ h => ⟨wellFormed_of_decode h, encode_of_decode h⟩

/-- Settles O5, by the opcode's own checks (R85, R164) in the order `runCommand` makes them. -/
theorem commandChecksInOrder : Obligations.CommandChecksInOrder := by
  rintro s w op color rsv hl rfl rfl rfl
  split_ifs with hillegal hrsv hcolor hnoColor hopen hnone
  · rw [exec_decodeCommand_of_illegal (opcodeOf_opField_eq_none.2 hillegal), perform_legal hl]
  all_goals
    obtain ⟨o, ho⟩ := Option.ne_none_iff_exists'.1 (mt opcodeOf_opField_eq_none.1 hillegal)
    have hop := toNat_opcodeByte_of_opcodeOf ho
    rw [exec_decodeCommand_of_opcode ho, runCommand_legal hl, opcodeStateError_eq_ite s hop]
    have hres := opcodeReserved_iff hl (w := w) hop
  · rw [if_pos (hres.2 (.inl hrsv))]
  · rw [if_pos (hres.2 (.inr (.inl hcolor)))]
  · rw [if_pos (hres.2 (.inr (.inr hnoColor)))]
  all_goals
    rw [if_neg (mt hres.1 (not_or.2 ⟨hrsv, not_or.2 ⟨hcolor, hnoColor⟩⟩))]
  · rw [if_pos hopen]
  · rw [if_neg hopen, if_pos hnone]
  · rw [if_neg hopen, if_neg hnone]
    exact ⟨_, rfl, opcodeEffect_errBits w s o, opcodeEffect_errInfo w s o⟩

/-- Settles O4: the checks in order (O5) say which words raise ERR_ILLEGAL_OP or ERR_RESERVED; the errors of the sequence
state set other bits. -/
theorem legalCommandWordsAreExactly : Obligations.LegalCommandWordsAreExactly := by
  intro s w hl hbits
  have hplanes : s.cfg.nPlanes ≤ 8 := by have := legal_iff.1 hl; omega
  rw [legalCommandWord_iff hplanes]
  change _ ↔ PassesDecodeChecks s w
  have hchecks := commandChecksInOrder s w _ _ _ hl rfl rfl rfl
  split_ifs at hchecks with hillegal hrsv hcolor hnoColor hopen hnone
  · exact iff_of_false (fun h => h.1 hillegal) (not_passesDecodeChecks_of_raise (.inl rfl) hchecks)
  · exact iff_of_false (fun h => hrsv h.2.1) (not_passesDecodeChecks_of_raise (.inr rfl) hchecks)
  · exact iff_of_false (fun h => h.2.2.1 hcolor) (not_passesDecodeChecks_of_raise (.inr rfl) hchecks)
  · exact iff_of_false (fun h => h.2.2.2 hnoColor) (not_passesDecodeChecks_of_raise (.inr rfl) hchecks)
  all_goals refine iff_of_true ⟨hillegal, not_not.1 hrsv, hcolor, hnoColor⟩ ?_
  · exact passesDecodeChecks_of_raise (by decide) hbits hchecks
  · exact passesDecodeChecks_of_raise (by decide) hbits hchecks
  · obtain ⟨t, ht, hsame, -⟩ := hchecks
    have hclear : t.errBits = 0 := hsame.trans hbits
    exact ⟨t, ht, statusBit_of_errBits_eq_zero hclear (by decide) (by decide),
      statusBit_of_errBits_eq_zero hclear (by decide) (by decide)⟩

/-- Settles O50: CLEAR is RECT over the full logical bounds with colour 0, which fits every number of planes. -/
theorem clearZeroesTheStore : Obligations.ClearZeroesTheStore := by
  intro s hg hseq
  obtain ⟨hl, hfb, -⟩ := hg
  have hfits : ColorFits s.cfg 0 := Nat.two_pow_pos _
  refine ⟨_, run_rectWrites hl hseq _ _ _ _ hfits, rfl, rfl, fun k i hk hi => ?_⟩
  rw [okayWrite_fb, fillRectEffect_fb, areaOperand_withOperands_full hl]
  refine (fbRead_fillArea_fullArea hl hfb s.rot 0 hk hi).trans ?_
  rw [show (0 : Byte).getLsbD k = false from BitVec.getLsbD_zero]
  rfl

end Sys2Proof.Machine
end

section
/-! What the rules of 40_datapath.md are settled from: a rotation and its inverse undo each other on points and on areas
(R106, R107), rotation keeps which points are in the bounds and in an area (R106, R109), the box `clipBounds` computes
(R111), and the ranges of the operands the datapath reads (R112). -/

namespace Sys2Proof.Machine

/-! ### Rotation of points -/

/-- The inverse angle over (FB_W, FB_H) undoes Rot (R106). -/
theorem rotatePoint_inverse_rot (c : Config) (r : Rotation) (qx qy : Int) :
    rotatePoint (inverseRotation r) c.fbW c.fbH (rot c r qx qy).1 (rot c r qx qy).2 = (qx, qy) := by
  cases r <;> simp only [rot, rotatePoint, inverseRotation, outerBounds, Prod.mk.injEq, and_true, true_and] <;> omega

/-- Rot undoes the inverse angle over (FB_W, FB_H) (R106). -/
theorem rot_rotatePoint_inverse (c : Config) (r : Rotation) (px py : Int) :
    rot c r (rotatePoint (inverseRotation r) c.fbW c.fbH px py).1
      (rotatePoint (inverseRotation r) c.fbW c.fbH px py).2 = (px, py) := by
  cases r <;> simp only [rot, rotatePoint, inverseRotation, outerBounds, Prod.mk.injEq, and_true, true_and] <;> omega

theorem rot_eq_iff {c : Config} {r : Rotation} {qx qy px py : Int} :
    rot c r qx qy = (px, py) ↔ (qx, qy) = rotatePoint (inverseRotation r) c.fbW c.fbH px py := by
  constructor
  · intro h
    rw [← rotatePoint_inverse_rot c r qx qy, h]
  · intro h
    rw [← rot_rotatePoint_inverse c r px py, ← h]

/-- A logical point is in the logical bounds exactly when its physical point is in bounds (R106). -/
theorem inLogical_iff_inB_rot (c : Config) (r : Rotation) (qx qy : Int) :
    InLogical c r qx qy ↔ InB c (rot c r qx qy).1 (rot c r qx qy).2 := by
  cases r <;> simp only [InLogical, InB, rot, rotatePoint, outerBounds] <;> omega

/-! ### Rotation of areas -/

/-- The inverse angle over (FB_W, FB_H) undoes RotRect (R107). -/
theorem rotateRect_inverse_rotRect (c : Config) (r : Rotation) (a : Area) :
    rotateRect (inverseRotation r) c.fbW c.fbH (rotRect c r a) = a := by
  obtain ⟨x, y, w, h⟩ := a
  cases r <;> simp only [rotRect, rotateRect, inverseRotation, outerBounds, Area.mk.injEq, and_true, true_and] <;> omega

/-- Rot and RotRect go together: a rotated point is in the rotated area exactly when the point is in the area (R109). -/
theorem areaHas_rotRect_rot (c : Config) (r : Rotation) (a : Area) (qx qy : Int) :
    AreaHas (rotRect c r a) (rot c r qx qy).1 (rot c r qx qy).2 ↔ AreaHas a qx qy := by
  cases r <;> simp only [AreaHas, rotRect, rotateRect, rot, rotatePoint] <;> omega

/-- The pixel set of RotRect is the image of the area's under Rot (R109). -/
theorem areaHas_rotRect_iff (c : Config) (r : Rotation) (a : Area) (px py : Int) :
    AreaHas (rotRect c r a) px py ↔ ∃ qx qy, AreaHas a qx qy ∧ rot c r qx qy = (px, py) := by
  constructor
  · intro h
    have hrot := rot_rotatePoint_inverse c r px py
    refine ⟨_, _, (areaHas_rotRect_rot c r a _ _).1 ?_, hrot⟩
    rwa [hrot]
  · rintro ⟨qx, qy, ha, hrot⟩
    have himage := (areaHas_rotRect_rot c r a qx qy).2 ha
    rwa [hrot] at himage

/-! ### Writes out of bounds -/

theorem plotPlane_of_not_inB {c : Config} {px py : Int} (h : ¬InB c px py) (k : Nat) (b : Bool) (m : Memory) :
    plotPlane c k px py b m = m := if_neg h

/-- A plot out of bounds has no effect on any plane (R103). -/
theorem plot_of_not_inB {c : Config} {px py : Int} (h : ¬InB c px py) (color : Byte) (m : Memory) :
    plot c px py color m = m :=
  forRange_induct (P := fun _ m' => m' = m) (Nat.zero_le _) rfl
    fun k m' _ _ hm' => (plotPlane_of_not_inB h k _ m').trans hm'

/-! ### Clipping -/

/-- The box `clipBounds` computes has the area's pixels that are in bounds, empty or not (R111). -/
theorem boxHas_clipBounds_iff (c : Config) (a : Area) (px py : Int) :
    BoxHas (clipBounds c a) px py ↔ AreaHas a px py ∧ InB c px py := by
  simp only [BoxHas, AreaHas, InB, clipBounds_x0, clipBounds_x1, clipBounds_y0, clipBounds_y1]
  omega

/-- A box has no pixel exactly when its columns or its rows are empty; otherwise it has its corner (x0, y0). -/
theorem box_empty_iff (b : ClipBox) : (b.x1 ≤ b.x0 ∨ b.y1 ≤ b.y0) ↔ ∀ px py, ¬BoxHas b px py := by
  constructor
  · rintro h px py ⟨hx0, hx1, hy0, hy1⟩
    omega
  · intro h
    have hcorner := h b.x0 b.y0
    simp only [BoxHas] at hcorner
    omega

theorem clip_eq_none_iff (c : Config) (a : Area) :
    clip c a = none ↔ (clipBounds c a).x1 ≤ (clipBounds c a).x0 ∨ (clipBounds c a).y1 ≤ (clipBounds c a).y0 := by
  simp only [clip, ite_eq_left_iff, reduceCtorEq, imp_false, not_not]

theorem clip_eq_some_iff {c : Config} {a : Area} {b : ClipBox} :
    clip c a = some b ↔ b = clipBounds c a ∧ b.x0 < b.x1 ∧ b.y0 < b.y1 := by
  unfold clip
  split_ifs with hempty
  · refine iff_of_false nofun ?_
    rintro ⟨rfl, hx, hy⟩
    omega
  · rw [Option.some.injEq]
    refine ⟨?_, fun h => h.1.symm⟩
    rintro rfl
    exact ⟨rfl, by omega⟩

/-! ### The ranges of the datapath -/

/-- A position of a sequence in R33's ranges is less than 2^33 from the origin in each coordinate (R112, R143). -/
theorem seqPosition_range {q : Sequence} (hq : SequenceInRange q) {i : Nat} (hi : i < q.w * q.h) :
    (-2 ^ 31 ≤ (seqPosition q i).1 ∧ (seqPosition q i).1 < 2 ^ 33) ∧
    (-2 ^ 31 ≤ (seqPosition q i).2 ∧ (seqPosition q i).2 < 2 ^ 33) := by
  obtain ⟨hx, hx', hy, hy', hw, hw', -, hh', -⟩ := hq
  have hcol : i % q.w < q.w := Nat.mod_lt i hw
  have hrow : i / q.w < q.h := Nat.div_lt_of_lt_mul hi
  unfold seqPosition
  generalize i % q.w = col at *
  generalize i / q.w = row at *
  omega

theorem pointToRotate_range {s : State} (hseq : seqInRange s.seq = true) {qx qy : Int} (h : PointToRotate s qx qy) :
    (-2 ^ 31 ≤ qx ∧ qx < 2 ^ 33) ∧ (-2 ^ 31 ≤ qy ∧ qy < 2 ^ 33) := by
  rcases h with ⟨rfl, rfl⟩ | ⟨q, i, hsome, hi, rfl, rfl⟩
  · have hx := sint_range s.posX
    have hy := sint_range s.posY
    omega
  · rw [hsome, seqInRange_some] at hseq
    exact seqPosition_range hseq hi

/-- The area is one the operand registers can hold (R24, R25). -/
def AreaInRange (a : Area) : Prop :=
  -2 ^ 31 ≤ a.x ∧ a.x < 2 ^ 31 ∧ -2 ^ 31 ≤ a.y ∧ a.y < 2 ^ 31 ∧ a.w < 2 ^ 32 ∧ a.h < 2 ^ 32

theorem areaInRange_areaOperand (s : State) : AreaInRange (areaOperand s) := by
  obtain ⟨hx, hx'⟩ := sint_range s.posX
  obtain ⟨hy, hy'⟩ := sint_range s.posY
  exact ⟨hx, hx', hy, hy', s.extW.isLt, s.extH.isLt⟩

/-- Rot of a point in the range of `pointToRotate_range` (R105, R112). -/
theorem rot_fits {c : Config} (hc : c.Legal) (r : Rotation) {qx qy : Int}
    (hx : -2 ^ 31 ≤ qx ∧ qx < 2 ^ 33) (hy : -2 ^ 31 ≤ qy ∧ qy < 2 ^ 33) :
    InThirtyFiveBits (rot c r qx qy).1 ∧ InThirtyFiveBits (rot c r qx qy).2 := by
  obtain ⟨hbw, hbh⟩ := outerBounds_lt hc r
  unfold rot
  generalize (outerBounds c r).1 = bw at *
  generalize (outerBounds c r).2 = bh at *
  cases r <;> simp only [rotatePoint, InThirtyFiveBits] <;> omega

/-- RotRect of an area in range: its corner, its size and its far corner (R108, R112). -/
theorem rotRect_fits {c : Config} (hc : c.Legal) (r : Rotation) {a : Area} (ha : AreaInRange a) :
    (InThirtyFiveBits (rotRect c r a).x ∧ InThirtyFiveBits (rotRect c r a).y) ∧
    (InThirtyFiveBits (rotRect c r a).w ∧ InThirtyFiveBits (rotRect c r a).h) ∧
    InThirtyFiveBits ((rotRect c r a).x + (rotRect c r a).w) ∧
    InThirtyFiveBits ((rotRect c r a).y + (rotRect c r a).h) := by
  obtain ⟨hx, hx', hy, hy', hw, hh⟩ := ha
  obtain ⟨hbw, hbh⟩ := outerBounds_lt hc r
  unfold rotRect
  generalize (outerBounds c r).1 = bw at *
  generalize (outerBounds c r).2 = bh at *
  cases r <;> simp only [rotateRect, InThirtyFiveBits] <;> omega

/-- Clip forms its bounds by max and min from the area's corners, 0 and the store's size (R111, R112). -/
theorem clipBounds_fits {c : Config} (hc : c.Legal) {a : Area} (hx : InThirtyFiveBits a.x) (hy : InThirtyFiveBits a.y)
    (hx' : InThirtyFiveBits (a.x + a.w)) (hy' : InThirtyFiveBits (a.y + a.h)) :
    InThirtyFiveBits (clipBounds c a).x0 ∧ InThirtyFiveBits (clipBounds c a).x1 ∧
    InThirtyFiveBits (clipBounds c a).y0 ∧ InThirtyFiveBits (clipBounds c a).y1 := by
  have hw := legal_fbW_lt hc
  have hh := legal_fbH_lt hc
  simp only [InThirtyFiveBits, clipBounds_x0, clipBounds_x1, clipBounds_y0, clipBounds_y1] at *
  omega

end Sys2Proof.Machine
end

section
/-! The rules of 40_datapath.md: rotation R104 to R109, clipping R111 and the width of the datapath R112. -/

namespace Sys2Proof.Machine

/-- Settles O14: Rot has a two-sided inverse, so it is a bijection, and a point it takes out of bounds is not plotted. -/
theorem rotationIsBijectiveOnBounds : Obligations.RotationIsBijectiveOnBounds := by
  intro c r
  refine ⟨fun px py => ?_, inLogical_iff_inB_rot c r, rotatePoint_inverse_rot c r, fun qx qy color m hout => ?_⟩
  · exact ⟨_, rot_rotatePoint_inverse c r px py, fun _ => rot_eq_iff.1⟩
  · exact plot_of_not_inB (mt (inLogical_iff_inB_rot c r qx qy).2 hout) color m

/-- Settles O16: the fill paints RotRect's pixels, which are the rotated pixels of the area. -/
theorem rotatedRectIsImageOfArea : Obligations.RotatedRectIsImageOfArea := by
  intro c r a
  refine ⟨areaHas_rotRect_iff c r a, fun m color k px py hc hm hin => ?_⟩
  have himage := (paints_fillArea hc r a color).congr fun _ x y _ => areaHas_rotRect_iff c r a x y
  obtain ⟨hpainted, hkept⟩ := (himage m hm).2 k px py hin
  exact ⟨fun qx qy ha hrot => hpainted ⟨qx, qy, ha, hrot⟩,
    fun hout => hkept fun ⟨qx, qy, ha, hrot⟩ => hout qx qy ha hrot⟩

/-- Settles O17, from the box before the emptiness test. -/
theorem clipIsIntersection : Obligations.ClipIsIntersection := by
  intro c a
  constructor
  · simp only [clip_eq_none_iff, box_empty_iff, boxHas_clipBounds_iff]
  · intro b hb
    obtain ⟨rfl, hx, hy⟩ := clip_eq_some_iff.1 hb
    exact ⟨boxHas_clipBounds_iff c a, le_max_right _ _, hx, min_le_right _ _, le_max_right _ _, hy, min_le_right _ _⟩

/-- Settles O15: the inner rectangle is RotRect of the full logical bounds, which the inverse angle gives back. -/
theorem outerBoxStartsAtOrigin : Obligations.OuterBoxStartsAtOrigin := by
  intro c r
  rw [← rotRect_fullArea c r]
  exact rotateRect_inverse_rotRect c r (fullArea c r)

/-- Settles O18, from the ranges of the operands and of R33, which leave 35 bits room for every sum. -/
theorem datapathFitsThirtyFiveBits : Obligations.DatapathFitsThirtyFiveBits := by
  rintro s r _ _ hl hseq rfl rfl
  obtain ⟨hbw, hbh⟩ := outerBounds_lt hl r
  refine ⟨fun qx qy hpoint => ?_, ?_, ?_⟩
  · obtain ⟨hx, hy⟩ := pointToRotate_range hseq hpoint
    have hrot := rot_fits hl r hx hy
    simp only [InThirtyFiveBits] at hrot ⊢
    omega
  · rintro _ rfl
    obtain ⟨hx, hx', hy, hy', hw, hh⟩ := areaInRange_areaOperand s
    simp only [InThirtyFiveBits]
    omega
  · rintro _ rfl
    obtain ⟨⟨hx, hy⟩, ⟨hw, hh⟩, hx', hy'⟩ := rotRect_fits hl r (areaInRange_areaOperand s)
    exact ⟨hx, hy, hw, hh, hx', hy', clipBounds_fits hl hx hy hx' hy'⟩

end Sys2Proof.Machine
end

section
/-! What the rules of 41_pixel_rect.md are settled from: two ways of painting the same pixels give one store (R126), what
LogicalPlot and the rectangle fill leave in the store (R121, R125), and the full logical bounds as an area (R122). -/

namespace Sys2Proof.Machine

/-! ### Two paintings of the same pixels -/

/-- Two operations that paint the same pixels with the same bits give the same store. -/
theorem Paints.eq_of_same_hit {c : Config} (hc : c.Legal) {hit : Nat → Nat → Nat → Prop} {val : Nat → Bool}
    {g g' : Memory → Memory} (h : Paints c hit val g) (h' : Paints c hit val g') {m : Memory}
    (hm : storeGood c m = true) : g m = g' m := by
  obtain ⟨hgood, hpixels⟩ := h m hm
  obtain ⟨hgood', hpixels'⟩ := h' m hm
  refine store_ext_pixels hc hgood hgood' fun k px py hin => ?_
  by_cases hhit : hit k px py
  · exact ((hpixels k px py hin).1 hhit).trans ((hpixels' k px py hin).1 hhit).symm
  · exact ((hpixels k px py hin).2 hhit).trans ((hpixels' k px py hin).2 hhit).symm

/-- The byte run between two multiples of 8 paints the columns between them (R123). -/
theorem paints_storeRun_columns {c : Config} (hc : c.Legal) {k py a e : Nat} (b : Bool) (hk : k < c.nPlanes)
    (hy : py < c.fbH) (he : e ≤ c.fbW) (ha8 : a % 8 = 0) (he8 : e % 8 = 0) :
    Paints c (fun k' x y => k' = k ∧ y = py ∧ a ≤ x ∧ x < e) (fun _ => b) (storeRun c k py (a / 8) (e / 8) b) := by
  have hrow : c.fbW = 8 * c.rowBytes := (legal_row hc).1
  refine (paints_storeRun hc b hk hy (show e / 8 ≤ c.rowBytes by omega)).congr fun k' x y _ => ?_
  rw [Nat.mul_div_cancel' (Nat.dvd_of_mod_eq_zero ha8), Nat.mul_div_cancel' (Nat.dvd_of_mod_eq_zero he8)]

/-! ### What LogicalPlot leaves in the store -/

/-- LogicalPlot gives the rotated point's pixel the colour's bit of its plane and leaves every other pixel (R121). -/
theorem pixelBit_logicalPlot {c : Config} (hc : c.Legal) {m : Memory} (hm : storeGood c m = true) (r : Rotation)
    (qx qy : Int) (color : Byte) {k px py : Nat} (hin : InStore c k px py) :
    pixelBit c (logicalPlot c r qx qy color m) k px py =
      if rot c r qx qy = ((px : Int), (py : Int)) then color.getLsbD k else pixelBit c m k px py := by
  obtain ⟨hpainted, hkept⟩ := (paints_logicalPlot hc r qx qy color m hm).2 k px py hin
  split_ifs with hrot
  · exact hpainted hrot
  · exact hkept hrot

/-- A pixel of the store that a point names is stored to at that pixel's byte (R101). -/
theorem plotStoresTo_of_inStore {c : Config} {k px py : Nat} (hin : InStore c k px py) :
    PlotStoresTo c ((px : Int), (py : Int)) (storeAddr c k (byteIndex c px py)) := by
  obtain ⟨hk, hx, hy⟩ := hin
  exact ⟨⟨Int.natCast_nonneg px, Int.ofNat_lt.2 hx, Int.natCast_nonneg py, Int.ofNat_lt.2 hy⟩, k, hk, rfl⟩

/-- LogicalPlot leaves every byte but the rotated point's own in each plane (R101, R121). -/
theorem read_logicalPlot {c : Config} (hc : c.Legal) {m : Memory} (hm : storeGood c m = true) (r : Rotation)
    (qx qy : Int) (color : Byte) {a : Nat} (ha : ¬PlotStoresTo c (rot c r qx qy) a) :
    (logicalPlot c r qx qy color m).read a = m.read a := by
  refine (paints_logicalPlot hc r qx qy color).read hc hm a ?_
  rintro k px py hin hrot rfl
  rw [hrot] at ha
  exact ha (plotStoresTo_of_inStore hin)

/-! ### The rectangle fill -/

/-- FILL_RECT's store: the physical pixels of the area's logical ones (R109, R125). -/
theorem paints_fillArea_image {c : Config} (hc : c.Legal) (r : Rotation) (a : Area) (color : Byte) :
    Paints c (fun _ x y => InFilled c r a x y) (fun k => color.getLsbD k) (fillArea c r a color) :=
  (paints_fillArea hc r a color).congr fun _ x y _ => areaHas_rotRect_iff c r a x y

/-- Operand registers at the origin with the outer bounds' size hold the full logical bounds (R104, R122). -/
theorem areaOperand_eq_fullArea {s : State} (hx : s.posX = 0) (hy : s.posY = 0)
    (hw : s.extW.toNat = (outerBounds s.cfg s.rot).1) (hh : s.extH.toNat = (outerBounds s.cfg s.rot).2) :
    areaOperand s = fullArea s.cfg s.rot := by
  have hzero : sint 0 = 0 := BitVec.toInt_zero
  unfold areaOperand fullArea
  rw [hx, hy, hzero, ← hw, ← hh]
  rfl

end Sys2Proof.Machine
end

section
/-! The rules of 41_pixel_rect.md: SET_PIXEL R120 and R121, FILL_RECT R122 and R125, and the two-tier row algorithm R123
and R126. -/

namespace Sys2Proof.Machine

/-- Settles O19: the byte run, the two-tier row and the bit-by-bit row all paint the columns of the row, and the painted
pixels determine the store. -/
theorem rowTiersGiveSameStore : Obligations.RowTiersGiveSameStore := by
  intro c m k py b hc hm hk hy
  constructor
  · intro a e _ he ha8 he8
    exact (paints_storeRun_columns hc b hk hy he ha8 he8).eq_of_same_hit hc (paints_plotColumns hc py a e b hk) hm
  · intro x0 x1 _ hx1
    exact (paints_fillRowPlane hc b hk hy hx1).eq_of_same_hit hc (paints_plotColumns hc py x0 x1 b hk) hm

/-- Settles O20: SET_PIXEL's effect is LogicalPlot of the operand point on the store, and nothing else. -/
theorem setPixelWritesOneLogicalPixel : Obligations.SetPixelWritesOneLogicalPixel := by
  rintro s color ⟨hl, hfb, -⟩ hseq hfits
  exact ⟨_, exec_setPixel hl hseq hfits, rfl, fun _ _ _ hin => pixelBit_logicalPlot hl hfb s.rot _ _ color hin,
    fun _ ha => read_logicalPlot hl hfb s.rot _ _ color ha⟩

/-- Settles O21: FILL_RECT's effect is the fill of the operand area, which paints its rotated pixels in the store. -/
theorem fillRectFillsClippedArea : Obligations.FillRectFillsClippedArea := by
  rintro s color ⟨hl, hfb, -⟩ hseq hfits
  have hpaints := paints_fillArea_image hl s.rot (areaOperand s) color
  exact ⟨_, exec_fillRect hl hseq hfits, rfl, (hpaints s.fb hfb).2, fun a ha => hpaints.read hl hfb a ha⟩

/-- Settles O22: the operands are the full logical bounds, whose fill reaches every bit of every byte. -/
theorem fullFillGivesUniformBytes : Obligations.FullFillGivesUniformBytes := by
  rintro s color ⟨hl, hfb, -⟩ hseq hfits hx hy hw hh
  refine ⟨_, exec_fillRect hl hseq hfits, fun k i hk hi => ?_⟩
  rw [okayWrite_fb, fillRectEffect_fb, areaOperand_eq_fullArea hx hy hw hh]
  exact fbRead_fillArea_fullArea hl hfb s.rot color hk hi

end Sys2Proof.Machine
end

section
/-! What the rules of 42_sequence.md are settled from: what SEQ_BEGIN, SEQ_PUSH and SEQ_END answer (R141, R144, R147), what
a command word does to an open sequence (R142), the store after a run of colours (R143, R145), and the transactions of a
sequence on the port (R148). -/

namespace Sys2Proof.Machine

/-! ### The meanings -/

/-- The sequence SEQ_BEGIN opens on an area that has a position (R141). -/
def latchedSequence (s : State) : Sequence :=
  { x0 := sint s.posX, y0 := sint s.posY, w := uint s.extW, h := uint s.extH, rot := s.rot, idx := 0 }

theorem uint_eq_zero {w : Word} : uint w = 0 ↔ w = 0 := BitVec.toNat_inj (y := 0)

theorem seqBeginEffect_eq_ite (s : State) :
    seqBeginEffect s = if s.extW = 0 ∨ s.extH = 0 then s else { s with seq := some (latchedSequence s) } := by
  simp only [seqBeginEffect, uint_eq_zero, latchedSequence]

/-- SEQ_BEGIN with no sequence open has its effect (R141, R164). -/
theorem exec_seqBegin {s : State} (hl : s.cfg.Legal) (hseq : s.seq = none) :
    exec (.seqBegin 0 0) s = .next (okayWrite (seqBeginEffect s)) :=
  runCommand_ok hl rfl (requireNoSeq_eq_none.2 hseq)

/-- The store after one colour at position i of a sequence, under its latched rotation (R143, R145). -/
def plotPosition (c : Config) (q : Sequence) (i : Nat) (color : Byte) (m : Memory) : Memory :=
  logicalPlot c q.rot (seqPosition q i).1 (seqPosition q i).2 color m

theorem seqPushEffect_of_open {s : State} {q : Sequence} (hseq : s.seq = some q) (color : Byte) :
    seqPushEffect color s = { s with fb := plotPosition s.cfg q q.idx color s.fb, seq := seqAdvance q } := by
  rw [seqPushEffect, hseq]
  rfl

/-- SEQ_PUSH with a sequence open and a colour of NPLANES bits writes the next position and advances (R144, R164). -/
theorem exec_seqPush {s : State} {q : Sequence} (hl : s.cfg.Legal) (hseq : s.seq = some q) {color : Byte}
    (hfits : ColorFits s.cfg color) :
    exec (.seqPush 0 color) s =
      .next { s with fb := plotPosition s.cfg q q.idx color s.fb, seq := seqAdvance q, response := okay } := by
  have hopen : requireSeq s = none := requireSeq_eq_none.2 (by simp [hseq])
  refine (runCommand_ok hl (reservedColor_of_fits hl hfits) hopen).trans ?_
  rw [seqPushEffect_of_open hseq]
  rfl

/-- SEQ_END has its effect whatever the sequence (R147, R164). -/
theorem exec_seqEnd {s : State} (hl : s.cfg.Legal) :
    exec (.seqEnd 0 0) s = .next { s with seq := none, response := okay } := runCommand_ok hl rfl rfl

/-- A command word that changes an open sequence is SEQ_PUSH, which advances it, or SEQ_END, which closes it (R142). -/
theorem command_seq {w : Word} {s t : State} {q : Sequence} (h : exec (decodeCommand w) s = .next t)
    (hseq : s.seq = some q) (hne : t.seq ≠ some q) :
    (w.toNat % 256 = 5 ∧ t.seq = none) ∨ (w.toNat % 256 = 4 ∧ t.seq = seqAdvance q) := by
  have hopen : s.seq ≠ none := by simp [hseq]
  obtain ⟨-, ⟨e, -, rfl⟩ | ⟨-, hnone, -⟩ | ⟨-, hnone, -⟩ | ⟨-, hnone, -⟩ | ⟨hop, -, rfl⟩ | ⟨hop, rfl⟩⟩ :=
    command_cases h
  · exact absurd hseq hne
  iterate 3 exact absurd hnone hopen
  · rw [seqPushEffect_of_open hseq]
    exact .inr ⟨hop, rfl⟩
  · exact .inl ⟨hop, rfl⟩

/-! ### The positions of a sequence -/

/-- The physical point of position i of a sequence (R143). -/
def positionPixel (c : Config) (q : Sequence) (i : Nat) : Int × Int :=
  rot c q.rot (seqPosition q i).1 (seqPosition q i).2

/-- No two positions of a sequence are the same logical point: i is its row times w and its column (R143). -/
theorem seqPosition_inj {q : Sequence} {i j : Nat} (h : seqPosition q i = seqPosition q j) : i = j := by
  obtain ⟨hx, hy⟩ := Prod.mk.inj h
  have hcol : i % q.w = j % q.w := by omega
  have hrow : i / q.w = j / q.w := by omega
  rw [← Nat.div_add_mod i q.w, hcol, hrow, Nat.div_add_mod]

/-- No two positions of a sequence are the same physical point, since Rot has an inverse (R106). -/
theorem positionPixel_inj {c : Config} {q : Sequence} {i j : Nat} (h : positionPixel c q i = positionPixel c q j) :
    i = j := by
  refine seqPosition_inj (q := q) ?_
  calc seqPosition q i
      = rotatePoint (inverseRotation q.rot) c.fbW c.fbH (positionPixel c q i).1 (positionPixel c q i).2 :=
        (rotatePoint_inverse_rot c q.rot _ _).symm
    _ = seqPosition q j := by rw [h]; exact rotatePoint_inverse_rot c q.rot _ _

section
variable {c : Config} (hc : c.Legal) {m : Memory} (hm : storeGood c m = true) (q : Sequence) (i : Nat)
include hc hm

theorem storeGood_plotPosition (color : Byte) : storeGood c (plotPosition c q i color m) = true :=
  storeGood_logicalPlot hc hm q.rot _ _ color

theorem pixelBit_plotPosition (color : Byte) {k px py : Nat} (hin : InStore c k px py) :
    pixelBit c (plotPosition c q i color m) k px py =
      if positionPixel c q i = ((px : Int), (py : Int)) then color.getLsbD k else pixelBit c m k px py :=
  pixelBit_logicalPlot hc hm q.rot _ _ color hin

theorem read_plotPosition (color : Byte) {a : Nat} (ha : ¬PlotStoresTo c (positionPixel c q i) a) :
    (plotPosition c q i color m).read a = m.read a :=
  read_logicalPlot hc hm q.rot _ _ color ha

end

/-! ### The store after a run of colours -/

/-- The store after colours at the positions of a sequence from position i on (R148). -/
def plotColors (c : Config) (q : Sequence) : Nat → List Byte → Memory → Memory
  | _, [], m => m
  | i, color :: rest, m => plotColors c q (i + 1) rest (plotPosition c q i color m)

section
variable {c : Config} (hc : c.Legal) (q : Sequence)
include hc

theorem storeGood_plotColors {m : Memory} (hm : storeGood c m = true) (i : Nat) (colors : List Byte) :
    storeGood c (plotColors c q i colors m) = true := by
  induction colors generalizing i m with
  | nil => exact hm
  | cons color rest ih => exact ih (storeGood_plotPosition hc hm q i color) (i + 1)

/-- A pixel that none of the positions names keeps its bit. -/
theorem pixelBit_plotColors_of_ne {m : Memory} (hm : storeGood c m = true) (i : Nat) (colors : List Byte)
    {k px py : Nat} (hin : InStore c k px py)
    (hne : ∀ n, n < colors.length → positionPixel c q (i + n) ≠ ((px : Int), (py : Int))) :
    pixelBit c (plotColors c q i colors m) k px py = pixelBit c m k px py := by
  induction colors generalizing i m with
  | nil => rfl
  | cons color rest ih =>
    have hfirst : positionPixel c q i ≠ ((px : Int), (py : Int)) := hne 0 (Nat.succ_pos _)
    have hrest := ih (storeGood_plotPosition hc hm q i color) (i + 1) fun n hn => by
      rw [Nat.add_assoc, Nat.add_comm 1 n]
      exact hne (n + 1) (Nat.succ_lt_succ hn)
    exact hrest.trans ((pixelBit_plotPosition hc hm q i color hin).trans (if_neg hfirst))

/-- A byte that none of the positions is stored to reads as before. -/
theorem read_plotColors {m : Memory} (hm : storeGood c m = true) (i : Nat) (colors : List Byte) {a : Nat}
    (ha : ∀ n, n < colors.length → ¬PlotStoresTo c (positionPixel c q (i + n)) a) :
    (plotColors c q i colors m).read a = m.read a := by
  induction colors generalizing i m with
  | nil => rfl
  | cons color rest ih =>
    have hrest := ih (storeGood_plotPosition hc hm q i color) (i + 1) fun n hn => by
      rw [Nat.add_assoc, Nat.add_comm 1 n]
      exact ha (n + 1) (Nat.succ_lt_succ hn)
    exact hrest.trans (read_plotPosition hc hm q i color (ha 0 (Nat.succ_pos _)))

/-- The pixel a position names has its colour's bit: no later position names it again. -/
theorem pixelBit_plotColors_of_eq {m : Memory} (hm : storeGood c m = true) (i : Nat) {colors : List Byte} {n : Nat}
    {color : Byte} (hcolor : colors[n]? = some color) {k px py : Nat} (hin : InStore c k px py)
    (hpixel : positionPixel c q (i + n) = ((px : Int), (py : Int))) :
    pixelBit c (plotColors c q i colors m) k px py = color.getLsbD k := by
  induction colors generalizing i m n with
  | nil => cases hcolor
  | cons first rest ih =>
    have hgood := storeGood_plotPosition hc hm q i first
    cases n with
    | zero =>
      obtain rfl : first = color := Option.some.inj hcolor
      have hlater : ∀ n, n < rest.length → positionPixel c q (i + 1 + n) ≠ ((px : Int), (py : Int)) := by
        intro n _ hsame
        have := positionPixel_inj (hsame.trans hpixel.symm)
        omega
      refine (pixelBit_plotColors_of_ne hc q hgood (i + 1) rest hin hlater).trans ?_
      exact (pixelBit_plotPosition hc hm q i first hin).trans (if_pos hpixel)
    | succ n =>
      refine ih hgood (i + 1) hcolor ?_
      rwa [Nat.add_assoc, Nat.add_comm 1 n]

end

/-! ### A sequence's transactions on the port -/

/-- The sequence once `i` of its colours are consumed: closed when the area is fully walked (R144). -/
def sequenceAt (q : Sequence) (i : Nat) : Option Sequence :=
  if i = q.w * q.h then none else some { q with idx := i }

theorem sequenceAt_of_lt {q : Sequence} {i : Nat} (h : i < q.w * q.h) : sequenceAt q i = some { q with idx := i } :=
  if_neg h.ne

/-- Advancing the cursor consumes one more colour (R144). -/
theorem seqAdvance_eq_sequenceAt (q : Sequence) (i : Nat) : seqAdvance { q with idx := i } = sequenceAt q (i + 1) := rfl

/-- The state in the middle of a sequence: `i` colours consumed, the store `m`, the last write acknowledged. -/
def midSequence (s : State) (q : Sequence) (i : Nat) (m : Memory) : State :=
  { s with fb := m, seq := sequenceAt q i, response := okay }

/-- SEQ_BEGIN on an area that has a position is acknowledged with no colour consumed (R141). -/
theorem exec_seqBegin_midSequence {s : State} (hl : s.cfg.Legal) (hseq : s.seq = none) (hw : s.extW ≠ 0)
    (hh : s.extH ≠ 0) : exec (.seqBegin 0 0) s = .next (midSequence s (latchedSequence s) 0 s.fb) := by
  have hpos : 0 < uint s.extW * uint s.extH :=
    Nat.mul_pos (Nat.pos_of_ne_zero (mt uint_eq_zero.1 hw)) (Nat.pos_of_ne_zero (mt uint_eq_zero.1 hh))
  rw [exec_seqBegin hl hseq, seqBeginEffect_eq_ite, if_neg (not_or.2 ⟨hw, hh⟩), midSequence,
    sequenceAt_of_lt (q := latchedSequence s) hpos]
  rfl

/-- SEQ_PUSH in the middle of a sequence consumes one colour more (R144). -/
theorem exec_seqPush_midSequence {s : State} (hl : s.cfg.Legal) (q : Sequence) {i : Nat} (hi : i < q.w * q.h)
    (m : Memory) {color : Byte} (hfits : ColorFits s.cfg color) :
    exec (.seqPush 0 color) (midSequence s q i m) =
      .next (midSequence s q (i + 1) (plotPosition s.cfg q i color m)) := by
  rw [exec_seqPush (s := midSequence s q i m) hl (sequenceAt_of_lt hi) hfits, seqAdvance_eq_sequenceAt]
  rfl

/-- The pushes of a list of colours, one step each, whatever waits behind them (R148). -/
theorem run_seqPushes {s : State} (hl : s.cfg.Legal) (q : Sequence) (is : List Instr) (n : Nat) {colors : List Byte}
    (hfits : ∀ color ∈ colors, ColorFits s.cfg color) {i : Nat} (hi : i + colors.length ≤ q.w * q.h) (m : Memory) :
    Sys2Proof.core.run (n + colors.length)
        (submit (colors.map (fun color => Instr.seqPush 0 color) ++ is) (midSequence s q i m)) =
      Sys2Proof.core.run n
        (submit is (midSequence s q (i + colors.length) (plotColors s.cfg q i colors m))) := by
  induction colors generalizing i m with
  | nil => rfl
  | cons color rest ih =>
    obtain ⟨hcolor, hrest⟩ := List.forall_mem_cons.1 hfits
    rw [List.length_cons] at hi ⊢
    have hpush := exec_seqPush_midSequence (s := submit (rest.map (fun color => Instr.seqPush 0 color) ++ is) s) hl q
      (show i < q.w * q.h by omega) m hcolor
    have hlater := ih hrest (i := i + 1) (by omega) (plotPosition s.cfg q i color m)
    rw [Nat.add_assoc i, Nat.add_comm 1] at hlater
    exact (run_submit_cons (s := midSequence s q i m) hl rfl hpush (n + rest.length)).trans hlater

/-- SEQ_BEGIN and the pushes of a list of colours, whatever waits behind them (R148). -/
theorem run_seqBegin_seqPushes {s : State} (hl : s.cfg.Legal) (hseq : s.seq = none) (hw : s.extW ≠ 0)
    (hh : s.extH ≠ 0) (is : List Instr) (n : Nat) {colors : List Byte}
    (hfits : ∀ color ∈ colors, ColorFits s.cfg color) (hlen : colors.length ≤ uint s.extW * uint s.extH) :
    Sys2Proof.core.run (n + colors.length + 1)
        (submit (.seqBegin 0 0 :: (colors.map (fun color => Instr.seqPush 0 color) ++ is)) s) =
      Sys2Proof.core.run n
        (submit is (midSequence s (latchedSequence s) colors.length
          (plotColors s.cfg (latchedSequence s) 0 colors s.fb))) := by
  have hbegin := exec_seqBegin_midSequence (s := submit (colors.map (fun color => Instr.seqPush 0 color) ++ is) s)
    hl hseq hw hh
  have hpushes := run_seqPushes hl (latchedSequence s) is n hfits (i := 0) (by rwa [Nat.zero_add]) s.fb
  rw [Nat.zero_add] at hpushes
  exact (run_submit_cons hl rfl hbegin (n + colors.length)).trans hpushes

/-- The same, stopped after the first `j` pushes: the others still wait. -/
theorem run_seqBegin_take {s : State} (hl : s.cfg.Legal) (hseq : s.seq = none) (hw : s.extW ≠ 0) (hh : s.extH ≠ 0)
    (is : List Instr) {colors : List Byte} (hfits : ∀ color ∈ colors, ColorFits s.cfg color)
    (hlen : colors.length ≤ uint s.extW * uint s.extH) {j : Nat} (hj : j ≤ colors.length) :
    Sys2Proof.core.run (j + 1)
        (submit (.seqBegin 0 0 :: (colors.map (fun color => Instr.seqPush 0 color) ++ is)) s) =
      .next (submit ((colors.drop j).map (fun color => Instr.seqPush 0 color) ++ is)
        (midSequence s (latchedSequence s) j (plotColors s.cfg (latchedSequence s) 0 (colors.take j) s.fb))) := by
  have hlenj : (colors.take j).length = j := List.length_take_of_le hj
  have hrun := run_seqBegin_seqPushes hl hseq hw hh
    ((colors.drop j).map (fun color => Instr.seqPush 0 color) ++ is) 0
    (fun color h => hfits color (List.mem_of_mem_take h)) (hlenj.trans_le (hj.trans hlen))
  rw [← List.append_assoc, ← List.map_append, List.take_append_drop, hlenj, Nat.zero_add] at hrun
  exact hrun

/-- SEQ_END at the end of the run: the sequence is closed, whether or not its last push closed it (R147, R148). -/
theorem run_seqEnd {s : State} (hl : s.cfg.Legal) (q : Sequence) (i : Nat) (m : Memory) :
    Sys2Proof.core.run 1 (submit [.seqEnd 0 0] (midSequence s q i m)) =
      .next { s with fb := m, seq := none, response := okay } :=
  run_submit_cons (s := midSequence s q i m) hl rfl (exec_seqEnd hl) 0

end Sys2Proof.Machine
end

section
/-! The rules of 42_sequence.md: SEQ_BEGIN R141 and R142, SEQ_PUSH R143 to R145, SEQ_END R147, and the run R148. -/

namespace Sys2Proof.Machine

/-- Settles O24, by whether the area has a position. -/
theorem seqBeginLatchesArea : Obligations.SeqBeginLatchesArea := by
  intro s hl hseq
  rw [exec_seqBegin hl hseq, seqBeginEffect_eq_ite]
  constructor
  · intro hempty
    rw [if_pos hempty]
    rfl
  · intro hopens
    rw [if_neg hopens]
    rfl

/-- Settles O26, from SEQ_END's meaning, which has no state check. -/
theorem seqEndCloses : Obligations.SeqEndCloses := fun _ hl => exec_seqEnd hl

/-- Settles O25: SEQ_PUSH's effect is LogicalPlot of the cursor's position on the store, and the cursor's advance. -/
theorem seqPushWritesNextPosition : Obligations.SeqPushWritesNextPosition := by
  rintro s q color p ⟨hl, hfb, -⟩ hseq hfits rfl
  exact ⟨_, exec_seqPush hl hseq hfits, rfl, fun _ _ _ hin => pixelBit_plotPosition hl hfb q q.idx color hin,
    fun _ ha => read_plotPosition hl hfb q q.idx color ha⟩

/-- Settles O27, by what the action is: only a reset and a command word reach an open sequence. -/
theorem openSequenceKeepsLatchedValues : Obligations.OpenSequenceKeepsLatchedValues := by
  intro s t q act rest hseq hp hst hne
  obtain ⟨-, ⟨hreset, -⟩ | ⟨tx, hact, ⟨hw, hcmd⟩ | ⟨r, hr, -, hreg⟩ | haccess⟩⟩ := step_action_cases hp hst
  · exact .inl hreset
  · exact .inr ⟨tx, hact, hw, command_seq hcmd hseq hne⟩
  · exact absurd ((regWrite_frame hr hreg).1.trans hseq) hne
  · exact absurd ((congrArg State.seq haccess).trans hseq) hne

/-- Settles O28: the run passes through the middle states of the latched sequence, whose store is the colours plotted at
its positions one after another; the first j pushes leave the others waiting. -/
theorem sequenceRunIsFillFromSequence : Obligations.SequenceRunIsFillFromSequence := by
  rintro s colors m start ⟨hl, hfb, -⟩ hseq hw hh hfits hm rfl
  have hlen : (colors.take m).length = m := by rw [List.length_take]; omega
  have hfits' : ∀ color ∈ colors.take m, ColorFits s.cfg color := fun color h => hfits color (List.mem_of_mem_take h)
  have harea : m ≤ uint s.extW * uint s.extH := hm.trans_le (min_le_right _ _)
  have hrun := run_seqBegin_seqPushes hl hseq hw hh [.seqEnd 0 0] 1 hfits' (hlen.trans_le harea)
  rw [hlen, Nat.add_comm 1] at hrun
  refine ⟨_, hrun.trans (run_seqEnd hl _ _ _), by rw [hseq], ?_, ?_, ?_, ?_⟩
  · intro i k px py color hi hcolor hin hpixel
    refine pixelBit_plotColors_of_eq hl (latchedSequence s) hfb 0 (n := i) ?_ hin (by rwa [Nat.zero_add])
    rwa [List.getElem?_take_of_lt hi]
  · intro k px py hin hne
    refine pixelBit_plotColors_of_ne hl (latchedSequence s) hfb 0 _ hin fun n hn => ?_
    rw [Nat.zero_add]
    exact hne n (hn.trans_eq hlen)
  · intro a ha
    refine read_plotColors hl (latchedSequence s) hfb 0 _ fun n hn => ?_
    rw [Nat.zero_add]
    exact ha n (hn.trans_eq hlen)
  · intro j hj
    have hpushes := run_seqBegin_take hl hseq hw hh [.seqEnd 0 0] hfits' (hlen.trans_le harea) (hj.trans_eq hlen.symm)
    refine ⟨_, hpushes, rfl, ?_⟩
    rintro rfl
    rw [List.take_take, Nat.min_self]
    rfl

end Sys2Proof.Machine
end

section
/-! What the rules of 60_exceptions.md are settled from: which STATUS bits each change of the error bits leaves set (R27,
R163), what a transaction can do to the error bits (R162, R165), and what a step leaves on the port (R174). -/

namespace Sys2Proof.Machine

/-! ### STATUS bits 8 to 12 across a change of the error bits -/

section ErrorBits

variable {s t : State} {n : Nat}

theorem statusBit_eq_of_errBits_eq (h : t.errBits = s.errBits) (h8 : 8 ≤ n) (h12 : n ≤ 12) :
    statusBit t n = statusBit s n := by
  rw [statusBit_error t h8 h12, statusBit_error s h8 h12, h]

theorem statusBit_of_setErrorBit {e : ErrorBit} (h : t.errBits = setErrorBit e s.errBits) (h8 : 8 ≤ n) (h12 : n ≤ 12) :
    statusBit t n = (decide (n = errorCode e) || statusBit s n) := by
  rw [statusBit_error t h8 h12, statusBit_error s h8 h12, h, setErrorBit_bit e _ (by omega), Nat.sub_add_cancel h8]

theorem statusBit_of_clearErrorBits {v : Word} (h : t.errBits = clearErrorBits v s.errBits) (h8 : 8 ≤ n) (h12 : n ≤ 12) :
    statusBit t n = (statusBit s n && !v.getLsbD n) := by
  rw [statusBit_error t h8 h12, statusBit_error s h8 h12, h, clearErrorBits_bit v _ (by omega), Nat.add_sub_of_le h8]

/-- A bit that was clear and is set after an error is raised is that error's own bit (R162, R165). -/
theorem eq_errorCode_of_raised {e : ErrorBit} (h : t.errBits = setErrorBit e s.errBits) (h8 : 8 ≤ n) (h12 : n ≤ 12)
    (hclear : statusBit s n = false) (hset : statusBit t n = true) : n = errorCode e := by
  rw [statusBit_of_setErrorBit h h8 h12, hclear, Bool.or_false] at hset
  exact of_decide_eq_true hset

end ErrorBits

/-- STATUS does not see which of the two raises set the bit: `raise BusError` differs from a command error of ERR_ACCESS in
the response only (R162, R165). -/
theorem statusBit_raiseBusError (kind : Kind) (a : Word) (s : State) {n : Nat} (hn : n < 32) :
    statusBit (raiseBusError kind a s) n = (decide (n = 12) || statusBit s n) :=
  statusBit_raiseCmdError .access a s hn

/-! ### What a step does to the error bits and the port -/

/-- Everything a transaction can do to the error bits: raise one error, leave them, or clear the ones a STATUS write names
(R27, R162, R165). -/
theorem transaction_errBits {s t : State} {tx : Transaction} {rest : List HostAction}
    (hp : s.pending = .transact tx :: rest) (hst : step s = .next t) :
    (∃ e, t.errBits = setErrorBit e s.errBits) ∨ t.errBits = s.errBits ∨
      (IsWordWrite tx 0x04 ∧ t.errBits = clearErrorBits tx.data s.errBits) := by
  rcases step_transaction_cases hp hst with ⟨-, rfl⟩ | ⟨-, ⟨-, hcmd⟩ | ⟨r, hr, -, hw, hreg⟩ | ⟨-, v, rfl⟩⟩
  · exact .inl ⟨.access, rfl⟩
  · obtain ⟨e, -, hbits, -⟩ | ⟨hbits, -⟩ := command_errors hcmd
    · exact .inl ⟨e, hbits⟩
    · exact .inr (.inl hbits)
  · obtain ⟨hbits, -⟩ | ⟨hbits, -⟩ | ⟨rfl, hbits, -⟩ := regWrite_errors hr hreg
    · exact .inl ⟨.access, hbits⟩
    · exact .inr (.inl hbits)
    · exact .inr (.inr ⟨hw, hbits⟩)
  · exact .inr (.inl rfl)

/-- A legal machine answers whatever action waits (R174, R181). -/
theorem step_action_answers {s : State} {act : HostAction} {rest : List HostAction} (hl : s.cfg.Legal)
    (hp : s.pending = act :: rest) : ∃ t, step s = .next t := by
  cases act with
  | reset => exact ⟨_, step_reset hl hp⟩
  | transact tx => exact step_transaction_answers hl hp

/-- A step takes its action off the port and leaves the later ones. -/
theorem step_pending {s t : State} {act : HostAction} {rest : List HostAction} (hp : s.pending = act :: rest)
    (hst : step s = .next t) : t.pending = rest := by
  obtain ⟨hl, ⟨-, rfl⟩ | ⟨tx, -, ⟨-, hcmd⟩ | ⟨r, hr, -, hreg⟩ | haccess⟩⟩ := step_action_cases hp hst
  · rfl
  · obtain ⟨u, hu, -, hpending⟩ := command_answers (w := tx.data) (s := { s with pending := rest }) hl
    obtain rfl : t = u := by injection hcmd.symm.trans hu
    exact hpending
  · obtain ⟨-, -, -, hpending, -⟩ := regWrite_frame hr hreg
    exact hpending
  · rw [haccess]

/-- The step of a transaction leaves its response on the port, ERROR or OKAY (R55, R165). -/
theorem transaction_response_ne_none {s t : State} {tx : Transaction} {rest : List HostAction}
    (hp : s.pending = .transact tx :: rest) (hst : step s = .next t) : t.response ≠ none := by
  obtain ⟨herror, hokay⟩ := errorResponseExactlyOnBusErrors s tx rest (step_cases hst).1 hp
  by_cases hbus : IsBusError s.cfg tx
  · obtain rfl : t = _ := by injection hst.symm.trans (herror hbus)
    exact Option.some_ne_none _
  · obtain ⟨u, d, hu, hresp, -⟩ := hokay hbus
    obtain rfl : t = u := by injection hst.symm.trans hu
    rw [hresp]
    exact Option.some_ne_none _

end Sys2Proof.Machine
end

section
/-! The rules of 60_exceptions.md: the raises R162 and R165, the error bits R163 and R168, and that nothing hangs R174. -/

namespace Sys2Proof.Machine

/-- Settles O9, by what the action is: a transaction raises an error, leaves the error bits, or is the STATUS write that
clears by ones. -/
theorem errorBitsAreSticky : Obligations.ErrorBitsAreSticky := by
  intro s t act rest n hp hst h8 h12 hset
  cases act with
  | reset => exact .inr (.inl rfl)
  | transact tx =>
    obtain ⟨e, hraise⟩ | hsame | ⟨hw, hclear⟩ := transaction_errBits hp hst
    · exact .inl (by rw [statusBit_of_setErrorBit hraise h8 h12, hset, Bool.or_true])
    · exact .inl ((statusBit_eq_of_errBits_eq hsame h8 h12).trans hset)
    · have hbit : statusBit t n = !tx.data.getLsbD n := by
        rw [statusBit_of_clearErrorBits hclear h8 h12, hset, Bool.true_and]
      cases hdata : tx.data.getLsbD n with
      | false => exact .inl (by rw [hbit, hdata, Bool.not_false])
      | true => exact .inr (.inr ⟨tx, rfl, hw, hdata⟩)

/-- Settles O10: a step that sets a clear error bit is a transaction that raises one error, and both bits are that
error's. -/
theorem atMostOneErrorRaised : Obligations.AtMostOneErrorRaised := by
  intro s t m n hst hm8 hm12 hn8 hn12 hm hm' hn hn'
  have hl : s.cfg.Legal := (step_cases hst).1
  have hchanged : t.errBits ≠ s.errBits := fun hsame => by
    rw [statusBit_eq_of_errBits_eq hsame hm8 hm12, hm] at hm'
    cases hm'
  cases hp : s.pending with
  | nil =>
    obtain rfl : s = t := by injection (step_idle hl hp).symm.trans hst
    exact absurd rfl hchanged
  | cons act rest =>
    cases act with
    | reset =>
      obtain rfl : _ = t := by injection (step_reset hl hp).symm.trans hst
      rw [statusBit_of_errBits_eq_zero (hostReset_errBits _) hm8 hm12] at hm'
      cases hm'
    | transact tx =>
      obtain ⟨e, hraise⟩ | hsame | ⟨-, hclear⟩ := transaction_errBits hp hst
      · exact (eq_errorCode_of_raised hraise hm8 hm12 hm hm').trans
          (eq_errorCode_of_raised hraise hn8 hn12 hn hn').symm
      · exact absurd hsame hchanged
      · rw [statusBit_of_clearErrorBits hclear hm8 hm12, hm, Bool.false_and] at hm'
        cases hm'

/-- Settles O43, by whether an action waits on the port. -/
theorem everyActionIsAnswered : Obligations.EveryActionIsAnswered := by
  intro s hl
  cases hp : s.pending with
  | nil => exact ⟨s, step_idle hl hp, fun _ => rfl, nofun⟩
  | cons act rest =>
    obtain ⟨t, hst⟩ := step_action_answers hl hp
    refine ⟨t, hst, nofun, ?_⟩
    rintro _ _ ⟨⟩
    refine ⟨step_pending hp hst, fun hact => ?_⟩
    cases act with
    | reset => exact absurd rfl hact
    | transact tx => exact transaction_response_ne_none hp hst

/-- Settles O6, from the bits of STATUS after the raise. -/
theorem commandErrorRecords : Obligations.CommandErrorRecords := fun s w e =>
  ⟨rfl, fun _ hn => statusBit_raiseCmdError e w s hn⟩

/-- Settles O7, by the kind of the access for the response, and from the bits of STATUS after the raise. -/
theorem busErrorRecords : Obligations.BusErrorRecords := by
  intro s a kind
  refine ⟨?_, fun n hn => statusBit_raiseBusError kind a s hn⟩
  cases kind with
  | read => rfl
  | write => rfl

end Sys2Proof.Machine
end

section
/-! The reset of 70_reset_and_hazards.md (R180, R181). -/

namespace Sys2Proof.Machine

/-- The reset keeps only the configuration and the host's later actions: whatever else the state held, an open sequence
and the store among it, is gone (R180, R181). -/
theorem hostReset_with_pending (s : State) (rest : List HostAction) :
    hostReset { s with pending := rest } = { State.resetWith s.cfg with pending := rest } := rfl

/-- Settles O44: a legal machine steps a waiting reset by `hostReset`, which is the reset state with the later actions
still on the port. -/
theorem hostResetGivesResetState : Obligations.HostResetGivesResetState := by
  intro s rest hl hp
  calc step s
    _ = .next (hostReset { s with pending := rest }) := step_reset hl hp
    _ = .next { State.resetWith s.cfg with pending := rest } := by rw [hostReset_with_pending]

end Sys2Proof.Machine
end
